-- ==== Sys2Proof/Word.lean ====
section
/-!
DEFINITION. The machine's plain value types: bytes, 32-bit words and durations
(00_scope.md R6, R7, R8).
-/

namespace Sys2Proof

/-- A 32-bit value: a command word, a payload word, a register image (R8). -/
abbrev Word := BitVec 32

/-- An 8-bit value of RawBytes or of the output buffer (R6). -/
abbrev Byte := BitVec 8

/-- A duration in microseconds, an unsigned 32-bit value (R7). -/
abbrev Dur := Word

end Sys2Proof
end

