-- ==== Sys2Proof/Format.lean ====
section
/-!
DEFINITION. The names and encoded forms of 30_encoding.md: the operations, the error codes, the host actions
a host program is a list of, and the encoded form of each row of the opcode table.
-/

namespace Sys2Proof

/-- The three operations of the command word (R72). "No operation" (OPL = NONE, or a word that decodes to
ILLEGAL) is `none` of `Option Op`. -/
inductive Op where
  | encser
  | enc
  | ser
deriving DecidableEq, Repr

/-- The error codes of 60_exceptions.md R191. Codes 5 to 15 are never produced, so they have no constructor. -/
inductive ErrCode where
  | none
  | illegalCmd
  | tooLong
  | badInput
  | oddLength
deriving DecidableEq, Repr

/-- A host action with its operands, the encoding of one line of a host program (R85). -/
inductive HostAction where
  | issue (cmd : Word) (payload : List Word)
  | wait
  | rdreg (n : Nat)
  | rdout (i : Nat)
  | reset
deriving DecidableEq, Repr

/-- The encoded form of an instruction, by the formats of R70.
`cmd`: a command word followed by its payload words. `bit`: the selected bit. `leader`, `pair`, `trl`: the bytes that
stand for the symbol in the output (R77, R78, R79). `action`: a host action (R85). -/
inductive Code where
  | cmd (words : List Word)
  | bit (b : BitVec 1)
  | leader (bytes : List Byte)
  | pair (bytes : List Byte)
  | trl (bytes : List Byte)
  | action (a : HostAction)
deriving DecidableEq, Repr

/-- Why a code is no instruction. -/
inductive CodeError where
  /-- A CMD code without its first word. -/
  | noCommandWord
  /-- Bytes that are not the leader's record. -/
  | notTheLeader
  /-- A PAIR code that is not 8 bytes long. -/
  | notARecord
  /-- Bytes that are not the trailer. -/
  | notTheTrailer
deriving DecidableEq, Repr

end Sys2Proof
end

