-- ==== Sys2Proof/Machine/CommandWord.lean ====
section
/-!
DEFINITION. The command word (30_encoding.md R71 to R73).
-/

namespace Sys2Proof

/-- The command decoder of R73; `none` is ILLEGAL. -/
def decodeOp (c : Word) : Option Op :=
  if c.extractLsb' 2 30 ≠ 0#30 then none
  else if c.extractLsb' 0 2 = 0b01#2 then some .encser
  else if c.extractLsb' 0 2 = 0b10#2 then some .enc
  else if c.extractLsb' 0 2 = 0b11#2 then some .ser
  else none

/-- The one word that decodes to each operation (R72, R73). -/
def cmdWord : Op → Word
  | .encser => 0x00000001#32
  | .enc => 0x00000002#32
  | .ser => 0x00000003#32

end Sys2Proof
end

