-- ==== Sys2Proof/Config.lean ====
section
/-!
DEFINITION. What is fixed for one IRPSE instance and what the spec leaves free: the parameter
MAX_ITEMS, the interleaving of the two agents, and the open points of the host context.
Every constant here that the spec leaves open is opaque: no proof can see its value.
-/

namespace Sys2Proof

/-- The two agents that act on IRPSE (10_state.md R20). -/
inductive Agent where
  | host
  | block
deriving DecidableEq, Repr, Inhabited

/-- The hex letters a HexDecoder accepts beside 0–9 (93_implementation_defined.md item 13). -/
inductive HexLetters where
  | lower
  | upper
  | both
deriving DecidableEq, Repr, Inhabited

namespace Config

/-- MAX_ITEMS less one. The open parameter of 00_scope.md R9: nothing says which value an instance has. -/
opaque maxItemsLessOne : Fin 67108863

/-- MAX_ITEMS, the most input words one job may carry: any value from 1 to 67108863 (R9). -/
def maxItems : Nat := maxItemsLessOne.val + 1

/-- The free interleaving of host and block (20_memory.md R60, 93 item 9): which agent moves at the n-th choice
that a run is not given. -/
opaque schedule : Nat → Agent

/-- Host context: HEX_DIGITS, the accepted digit set (93 item 13). -/
opaque hexLetters : HexLetters

/-- Host context: the offending substring a DecodeError carries for a given input (93 item 14). -/
opaque offendingSubstring : List Char → List Char

end Config

end Sys2Proof
end

