-- ==== Sys2Proof/Machine/State.lean ====
section
/-!
DEFINITION. The state of one IRPSE instance (10_state.md R24 to R34), the host's side of it, and the ways a step stops.
-/

namespace Sys2Proof.Machine

/-- STATUS.ST (10_state.md R25). -/
inductive St where
  | idle
  | busy
  | done
  | error
deriving DecidableEq, Repr

/-- PHASE (R30); `ended` is END. -/
inductive Phase where
  | leader
  | data
  | trailer
  | ended
deriving DecidableEq, Repr

/-- What a host read returned (42_job_control.md R151, R152; widths 20_memory.md R57): a register's 32 bits, a 32-bit
duration of OUTD, or one byte of OUTB. -/
inductive Response where
  | reg (n : Nat) (v : Word)
  | duration (i : Nat) (v : Dur)
  | byte (i : Nat) (v : Byte)
deriving DecidableEq, Repr

/-- The machine's state. The first ten fields are the block's (OUTLEN is computed, R27); then the host's pending
actions and what its reads returned; `choices` and `turn` belong to the model (which agent moves where both may). -/
structure State where
  /-- CMD (R24): the last issued command word. -/
  cmd : Word
  /-- STATUS.ST (R25). -/
  st : St
  /-- ERR.CODE (R26). -/
  err : ErrCode
  /-- OPL (R28), the latched operation. -/
  opl : Option Op
  /-- SRC (R29), the payload words not yet consumed. -/
  src : List Word
  /-- PHASE (R30). -/
  phase : Phase
  /-- SHREG (R31). -/
  shreg : Byte
  /-- BITSLEFT (R32), from 0 to 8. -/
  bitsLeft : Fin 9
  /-- OUTD (R33). -/
  outd : List Dur
  /-- OUTB (R34). -/
  outb : List Byte
  /-- The host actions still to be taken (30_encoding.md R85). -/
  program : List HostAction
  /-- The values the host's reads have returned, oldest first. -/
  responses : List Response
  /-- The interleaving's next choices, where a run is given some. -/
  choices : List Agent
  /-- The number of the next free choice (`Config.schedule`). -/
  turn : Nat
deriving DecidableEq, Repr

/-- The model's faults. -/
inductive Fault where
  /-- `unreachable state` (60_exceptions.md R207): the state holds ST = BUSY in a sequencer position to which no case of
  R145 applies. Raised by the step, whichever agent would move, and by the block step. Safe: no run of the rules reaches
  it. -/
  | unreachableState
  /-- A symbol (LEADER, BIT0, BIT1, REC, TRAILER) was given to `exec` in a state whose sequencer does not select it. Raised
  by the symbols' meanings; `step` never raises it. Safe: no rule gives the symbol an effect there (log 8). -/
  | notSelected
deriving DecidableEq, Repr

/-- The model's refusals. -/
inductive Refusal where
  /-- An instruction without a meaning. No arm of `exec` answers it. Safe. -/
  | notModelled (mnemonic : String)
  /-- RDREG of a register number ≥ 4 (R151, R208): no value. Raised by RDREG. Safe. -/
  | noSuchRegister (n : Nat)
  /-- RDOUT of an index ≥ OUTLEN, or with OPL = NONE (R152, R208): no value. Raised by RDOUT. Safe. -/
  | noSuchOutput (i : Nat)
deriving DecidableEq, Repr

/-- The state after reset and at power-on (10_state.md R40, 70_reset_and_hazards.md R220, R221). The host's side is empty
(logs 1, 3 and 5). -/
def State.reset : State where
  cmd := 0x00000000#32
  st := .idle
  err := .none
  opl := none
  src := []
  phase := .ended
  shreg := 0x00#8
  bitsLeft := 0
  outd := []
  outb := []
  program := []
  responses := []
  choices := []
  turn := 0

end Sys2Proof.Machine
end

