-- ==== Sys2Proof/Machine/Flags.lean ====
section
/-!
DEFINITION. The status indications and the register images: STATUS, ERR and OUTLEN (10_state.md R25 to R27, R37). IRPSE has
no arithmetic flag.
-/

namespace Sys2Proof.Machine

/-- The field STATUS.ST, bits 1:0 (R25). -/
def St.code : St → BitVec 2
  | .idle => 0#2
  | .busy => 1#2
  | .done => 2#2
  | .error => 3#2

/-- The field ERR.CODE, bits 3:0 (R26, 60_exceptions.md R191). -/
def errCode : ErrCode → BitVec 4
  | .none => 0#4
  | .illegalCmd => 1#4
  | .tooLong => 2#4
  | .badInput => 3#4
  | .oddLength => 4#4

/-- STATUS as read: zext_32(ST), so bits 31:2 read as 0 (R25, R36). -/
def State.statusWord (s : State) : Word := s.st.code.setWidth 32

/-- ERR as read: zext_32(CODE), so bits 31:4 read as 0 (R26, R36). -/
def State.errWord (s : State) : Word := (errCode s.err).setWidth 32

/-- The number of output items: `len(OUTD)` when OPL = ENC and `len(OUTB)` otherwise (R27). -/
def State.outCount (s : State) : Nat :=
  match s.opl with
  | some .enc => s.outd.length
  | _ => s.outb.length

/-- OUTLEN as read, 32 bits (R27). -/
def State.outLen (s : State) : Word := BitVec.ofNat 32 s.outCount

/-- The register map of R22, as RDREG reads it (42_job_control.md R151); none where no register has that number. -/
def State.readReg (s : State) : Nat → Option Word
  | 0 => some s.cmd
  | 1 => some s.statusWord
  | 2 => some s.errWord
  | 3 => some s.outLen
  | _ => none

end Sys2Proof.Machine
end

