-- ==== Sys2Proof/Machine/Kernel.lean ====
section
/-!
DEFINITION. The functions the block computes, as the source gives them: the timing constants, little-endian bytes,
Encode (40_pulse_encoder.md) and Serialize (41_buffer_serializer.md).
-/

namespace Sys2Proof.Machine

/-! The constants of 00_scope.md R10. -/

def leaderPulse : Dur := 4350#32
def leaderSpace : Dur := 4350#32
def bitPulse : Dur := 460#32
def spaceOne : Dur := 1600#32
def spaceZero : Dur := 600#32
def trailerBytes : List Byte := [0xCA#8, 0x01#8, 0x00#8, 0x00#8]

/-- `le32(v) = [v[7:0], v[15:8], v[23:16], v[31:24]]` (20_memory.md R51). -/
def le32 (v : Word) : List Byte :=
  [v.extractLsb' 0 8, v.extractLsb' 8 8, v.extractLsb' 16 8, v.extractLsb' 24 8]

/-- The value whose little-endian bytes are b0, b1, b2, b3: the sum of R55. -/
def le32Value (b0 b1 b2 b3 : Byte) : Word :=
  BitVec.ofNat 32 (b0.toNat + 2 ^ 8 * b1.toNat + 2 ^ 16 * b2.toNat + 2 ^ 24 * b3.toNat)

/-- The j-th 32-bit value of a buffer, rebuilt from its bytes as R55 says; none where the buffer ends before it. -/
def rebuiltValue (buf : List Byte) (j : Nat) : Option Word :=
  match buf.drop (4 * j) with
  | b0 :: b1 :: b2 :: b3 :: _ => some (le32Value b0 b1 b2 b3)
  | _ => none

/-- The 8-byte record of a pair, format PAIR (30_encoding.md R78). -/
def recordBytes (p s : Dur) : List Byte := le32 p ++ le32 s

/-- The space that carries a bit's value (R76, R11). -/
def bitSpace (b : Bool) : Dur := if b then spaceOne else spaceZero

/-- The bit numbers in the order they go out, most significant first (R52, R104). -/
def bitOrder : List Nat := [7, 6, 5, 4, 3, 2, 1, 0]

/-- EncodeByte of R100. -/
def encodeByte (b : Byte) : List Dur :=
  bitOrder.flatMap fun i => [bitPulse, bitSpace (b.getLsbD i)]

/-- Encode of R100: the leader pair, then every byte in order. -/
def encodePulses (bs : List Byte) : List Dur :=
  [leaderPulse, leaderSpace] ++ bs.flatMap encodeByte

/-- EncodePairs of R107. -/
def encodePairs (bs : List Byte) : List (Dur × Dur) :=
  (leaderPulse, leaderSpace) :: bs.flatMap fun b => bitOrder.map fun i => (bitPulse, bitSpace (b.getLsbD i))

/-- The pairs (entries 2k and 2k+1) of a sequence, in order (R18, R124). -/
def pairsOf : List Dur → List (Dur × Dur)
  | p :: s :: rest => (p, s) :: pairsOf rest
  | _ => []

/-- Serialize of R120: one record per pair, then the trailer; an odd length is the error ODD_LENGTH. -/
def serialize (ds : List Dur) : Except ErrCode (List Byte) :=
  if ds.length % 2 = 1 then .error .oddLength
  else .ok ((pairsOf ds).flatMap (fun q => recordBytes q.1 q.2) ++ trailerBytes)

/-- The buffer of the composition `Serialize(Encode(bs))`, the data path of ENCSER, which never fails (R127): the
records of the encoded pairs and the trailer. -/
def encodedBuffer (bs : List Byte) : List Byte :=
  (encodePairs bs).flatMap (fun q => recordBytes q.1 q.2) ++ trailerBytes

end Sys2Proof.Machine
end

