-- ==== Sys2Proof/Machine/Operands.lean ====
section
/-!
DEFINITION. Operand forms (30_encoding.md R74, R75, R80): IN8 and IN32 payload words, the bit selected for emission, output
items. No operand is sign-extended, scaled or shifted.
-/

namespace Sys2Proof.Machine

/-- A word of format IN8: bits 31:8 are 0 (R74). -/
def isIn8 (w : Word) : Bool := w.extractLsb' 8 24 == 0#24

/-- The byte of an IN8 word, `w[7:0]` (R80). -/
def byteOf (w : Word) : Byte := w.extractLsb' 0 8

/-- The bytes of an IN8 payload (42_job_control.md R142). -/
def payloadBytes (payload : List Word) : List Byte := payload.map byteOf

/-- The operations whose payload has format IN8 (R72). -/
def takesBytes : Op → Bool
  | .encser => true
  | .enc => true
  | .ser => false

/-- The bit to emit next, `SHREG[BITSLEFT − 1]` (10_state.md R32, R80). -/
def State.selectedBit (s : State) : Bool := s.shreg.getLsbD (s.bitsLeft.val - 1)

/-- BITSLEFT one lower (R32). -/
def bitsDown (b : Fin 9) : Fin 9 := ⟨b.val - 1, by omega⟩

/-- `OutRead(i)`: output item i (42_job_control.md R152), a 32-bit duration in ENC mode and a byte in the byte modes; none at
or beyond the end, or with OPL = NONE. -/
def State.outRead (s : State) (i : Nat) : Option Response :=
  match s.opl with
  | some .enc => s.outd[i]?.map (.duration i)
  | some .encser => s.outb[i]?.map (.byte i)
  | some .ser => s.outb[i]?.map (.byte i)
  | none => none

end Sys2Proof.Machine
end

