-- ==== Sys2Proof/Machine/Ops.lean ====
section
/-!
DEFINITION. The operations the meanings share: issuing a job with its checks, `fail E` (this machine's taking of an
exception), `Emit`, RESET, and the host's moving on to its next action.
-/

namespace Sys2Proof.Machine

/-- The host action at the head of the program has been taken. -/
def State.retire (s : State) : State := { s with program := s.program.tail }

/-- A read has returned a value. -/
def State.respond (s : State) (r : Response) : State := { s with responses := s.responses ++ [r] }

/-! ### ISSUE (42_job_control.md R141) -/

/-- The writes every ISSUE makes first: CMD takes the word, every internal variable and both outputs are cleared. -/
def State.latch (c : Word) (s : State) : State :=
  { s with cmd := c, outd := [], outb := [], src := [], shreg := 0x00#8, bitsLeft := 0, phase := .ended, opl := none }

/-- `fail E` (60_exceptions.md R193): the error is reported in ERR and ST. Nothing else is saved and control goes nowhere
(R190). Leaving ERROR is by the next ISSUE or RESET (R197); there is no other return. -/
def State.failIssue (e : ErrCode) (s : State) : State := { s with err := e, st := .error }

/-- The first error a payload has for an operation, in the order of R194 (causes R192). -/
def payloadError (maxItems : Nat) (op : Op) (payload : List Word) : Option ErrCode :=
  if payload.length > maxItems then some .tooLong
  else if takesBytes op && payload.any (fun w => !isIn8 w) then some .badInput
  else if op = .ser ∧ payload.length % 2 = 1 then some .oddLength
  else none

/-- The first error of an ISSUE (R192, R194): an illegal word before any error of its payload. -/
def issueError (maxItems : Nat) (c : Word) (payload : List Word) : Option ErrCode :=
  match decodeOp c with
  | none => some .illegalCmd
  | some op => payloadError maxItems op payload

/-- Where a job's sequencer starts (R30). -/
def startPhase : Op → Phase
  | .ser => .data
  | .enc => .leader
  | .encser => .leader

/-- The writes of an accepted job, after `latch`. -/
def State.accept (op : Op) (payload : List Word) (s : State) : State :=
  { s with opl := some op, src := payload, err := .none, st := .busy, phase := startPhase op }

/-- The ISSUE transition of R141, with the parameter MAX_ITEMS as its argument (00_scope.md R9). -/
def issueTransition (maxItems : Nat) (c : Word) (payload : List Word) (s : State) : State :=
  match decodeOp c with
  | none => (s.latch c).failIssue .illegalCmd
  | some op =>
    match payloadError maxItems op payload with
    | some e => (s.latch c).failIssue e
    | none => (s.latch c).accept op payload

/-- ISSUE as a host action: only enabled when ST ≠ BUSY; while BUSY it has no step and the host holds, its action still to
be taken (R141, R224). -/
def issueAction (maxItems : Nat) (c : Word) (payload : List Word) (s : State) : State :=
  if s.st = .busy then s else (issueTransition maxItems c payload s).retire

/-! ### The block's output (R148, 40_pulse_encoder.md, 41_buffer_serializer.md) -/

/-- `Emit(p, s)`: append one pair to the current job's output, by OPL (R148). -/
def State.emit (p q : Dur) (s : State) : State :=
  match s.opl with
  | some .enc => { s with outd := s.outd ++ [p, q] }
  | _ => { s with outb := s.outb ++ recordBytes p q }

/-! ### RESET (70_reset_and_hazards.md R220) -/

/-- The block's variables take their reset values (10_state.md R40). The host and the interleaving are not part of the
block, so they go on (log 4). -/
def State.resetBlock (s : State) : State :=
  { State.reset with program := s.program, responses := s.responses, choices := s.choices, turn := s.turn }

end Sys2Proof.Machine
end

