-- ==== Sys2Proof/Machine/Commands.lean ====
section
/-!
DEFINITION. The CMD rows: a command word issued with a payload starts a job or reports an error
(42_job_control.md R141 to R144, 60_exceptions.md R192). The job itself is run by the block steps.
-/

namespace Sys2Proof.Machine

/-- ENCSER (R142): the ISSUE of word 0x00000001. -/
def execEncser (payload : List Word) (s : State) : Host.Outcome State Fault Refusal :=
  .next (issueAction Config.maxItems 0x00000001#32 payload s)

/-- ENC (R143): the ISSUE of word 0x00000002. -/
def execEnc (payload : List Word) (s : State) : Host.Outcome State Fault Refusal :=
  .next (issueAction Config.maxItems 0x00000002#32 payload s)

/-- SER (R144): the ISSUE of word 0x00000003. -/
def execSer (payload : List Word) (s : State) : Host.Outcome State Fault Refusal :=
  .next (issueAction Config.maxItems 0x00000003#32 payload s)

/-- ILLEGAL (R192): the ISSUE of a word that decodes to no operation ends in ILLEGAL_CMD. -/
def execIllegal (word : Word) (payload : List Word) (s : State) : Host.Outcome State Fault Refusal :=
  .next (issueAction Config.maxItems word payload s)

end Sys2Proof.Machine
end

