-- ==== Sys2Proof/Machine/HostActions.lean ====
section
/-!
DEFINITION. The host actions ISSUE, WAIT, RDREG, RDOUT (42_job_control.md R141, R151 to R153) and RESET
(70_reset_and_hazards.md R220).
-/

namespace Sys2Proof.Machine

/-- ISSUE(c, P) (R141). -/
def execIssue (cmd : Word) (payload : List Word) (s : State) : Host.Outcome State Fault Refusal :=
  .next (issueAction Config.maxItems cmd payload s)

/-- WAIT completes, with no effect on the block, only when ST ≠ BUSY; while BUSY the host holds (R153). -/
def execWait (s : State) : Host.Outcome State Fault Refusal :=
  .next (if s.st = .busy then s else s.retire)

/-- RDREG(n): register n is returned; a number ≥ 4 is refused (R151, R208). -/
def execRdreg (n : Nat) (s : State) : Host.Outcome State Fault Refusal :=
  match s.readReg n with
  | some v => .next (s.retire.respond (.reg n v))
  | none => .refused (.noSuchRegister n)

/-- RDOUT(i): output item i is returned; an index ≥ OUTLEN, or any index with OPL = NONE, is refused (R152, R208). -/
def execRdout (i : Nat) (s : State) : Host.Outcome State Fault Refusal :=
  match s.outRead i with
  | some r => .next (s.retire.respond r)
  | none => .refused (.noSuchOutput i)

/-- RESET: always enabled, the block takes its reset state (R220). -/
def execReset (s : State) : Host.Outcome State Fault Refusal :=
  .next s.resetBlock.retire

/-- Whether the host may take an action: ISSUE and WAIT only when ST ≠ BUSY, the others always (R141, R151 to R153,
R220). -/
def actionEnabled (s : State) : HostAction → Bool
  | .issue _ _ => s.st != .busy
  | .wait => s.st != .busy
  | .rdreg _ => true
  | .rdout _ => true
  | .reset => true

end Sys2Proof.Machine
end

