-- ==== Sys2Proof/Syntax.lean ====
section
/-!
DEFINITION. The instructions: one constructor per row of spec/opcode_table.json.
-/

namespace Sys2Proof

/-- The 14 rows of the opcode table. A CMD row carries the payload that is issued with the word. -/
inductive Instr where
  /-- ENCSER, command word 0x00000001 (42_job_control.md R142). -/
  | encser (payload : List Word)
  /-- ENC, command word 0x00000002 (R143). -/
  | enc (payload : List Word)
  /-- SER, command word 0x00000003 (R144). -/
  | ser (payload : List Word)
  /-- ILLEGAL, any other command word (60_exceptions.md R192). -/
  | illegal (word : Word) (payload : List Word)
  /-- BIT0, a data bit of value 0 (40_pulse_encoder.md R102). -/
  | bit0
  /-- BIT1, a data bit of value 1 (R103). -/
  | bit1
  /-- LEADER, the header burst (R101). -/
  | leader
  /-- REC, one pair record (41_buffer_serializer.md R121). -/
  | record (pulse space : Dur)
  /-- TRAILER, the end-of-burst marker (R122). -/
  | trailer
  /-- ISSUE(c, P) (42_job_control.md R141). -/
  | issue (cmd : Word) (payload : List Word)
  /-- WAIT (R153). -/
  | wait
  /-- RDREG(n) (R151). -/
  | rdreg (n : Nat)
  /-- RDOUT(i) (R152). -/
  | rdout (i : Nat)
  /-- RESET (70_reset_and_hazards.md R220). -/
  | reset
deriving DecidableEq, Repr

/-- The instruction a host action is. -/
def HostAction.toInstr : HostAction → Instr
  | .issue c p => .issue c p
  | .wait => .wait
  | .rdreg n => .rdreg n
  | .rdout i => .rdout i
  | .reset => .reset

end Sys2Proof
end

