-- ==== Sys2Proof/WellFormed.lean ====
section
/-!
DEFINITION. Which instructions the encodings of 30_encoding.md can spell.
-/

namespace Sys2Proof

/-- Every form is an instruction but one: an ILLEGAL row's word is one that the command decoder gives no operation
(R73, R192). A payload that fails a job (BAD_INPUT, TOO_LONG, ODD_LENGTH) is no ill-formed payload: the ISSUE of it runs
and reports the error (R141). -/
def Instr.wf : Instr → Bool
  | .illegal w _ => (decodeOp w).isNone
  | _ => true

end Sys2Proof
end

