-- ==== Sys2Proof/Decode.lean ====
section
/-!
DEFINITION. The decoders of 30_encoding.md, total on every code and rejecting by name, and the encoder written from the
same tables.
-/

namespace Sys2Proof

/-- The instruction of a command word and its payload (R72, R73). -/
def decodeCommand (c : Word) (payload : List Word) : Instr :=
  match decodeOp c with
  | some .encser => .encser payload
  | some .enc => .enc payload
  | some .ser => .ser payload
  | none => .illegal c payload

/-- The bit decoder of R76. -/
def decodeBit (b : Bool) : Instr := if b then .bit1 else .bit0

/-- The pair of an 8-byte record (R78). -/
def decodeRecord : List Byte → Except CodeError Instr
  | [p0, p1, p2, p3, s0, s1, s2, s3] =>
    .ok (.record (Machine.le32Value p0 p1 p2 p3) (Machine.le32Value s0 s1 s2 s3))
  | _ => .error .notARecord

/-- The decoder, total on every code. -/
def decode : Code → Except CodeError Instr
  | .cmd (c :: payload) => .ok (decodeCommand c payload)
  | .cmd [] => .error .noCommandWord
  | .bit b => .ok (decodeBit (b.getLsbD 0))
  | .leader bytes =>
    if bytes = Machine.recordBytes Machine.leaderPulse Machine.leaderSpace then .ok .leader else .error .notTheLeader
  | .pair bytes => decodeRecord bytes
  | .trl bytes => if bytes = Machine.trailerBytes then .ok .trailer else .error .notTheTrailer
  | .action a => .ok a.toInstr

/-- The encoder: the code of each row, from its format. -/
def encode : Instr → Code
  | .encser p => .cmd (0x00000001#32 :: p)
  | .enc p => .cmd (0x00000002#32 :: p)
  | .ser p => .cmd (0x00000003#32 :: p)
  | .illegal w p => .cmd (w :: p)
  | .bit0 => .bit 0#1
  | .bit1 => .bit 1#1
  | .leader => .leader [0xFE#8, 0x10#8, 0x00#8, 0x00#8, 0xFE#8, 0x10#8, 0x00#8, 0x00#8]
  | .record p s => .pair (Machine.recordBytes p s)
  | .trailer => .trl [0xCA#8, 0x01#8, 0x00#8, 0x00#8]
  | .issue c p => .action (.issue c p)
  | .wait => .action .wait
  | .rdreg n => .action (.rdreg n)
  | .rdout i => .action (.rdout i)
  | .reset => .action .reset

/-- The code whose bits are `w`, by the width of the row's format: 1 bit (in one byte, the row's mask taking bit 0) is
BIT, 32 bits are a command word with no payload word, 64 bits are a record with byte k at bits 8k+7 to 8k
(R70, R78). No format has another width. -/
def tableCode (nbits w : Nat) : Option Code :=
  if nbits = 1 ∨ nbits = 8 then some (.bit (BitVec.ofNat 1 w))
  else if nbits = 32 then some (.cmd [BitVec.ofNat 32 w])
  else if nbits = 64 then
    some (.pair ((List.range 8).map fun k => (BitVec.ofNat 64 w).extractLsb' (8 * k) 8))
  else none

/-- The instruction the decoder reads from a table word; none where it refuses. -/
def decodeTableWord (nbits w : Nat) : Option Instr :=
  match tableCode nbits w with
  | some c => (decode c).toOption
  | none => none

end Sys2Proof
end

