-- ==== Sys2Proof/Machine/Sequencer.lean ====
section
/-!
DEFINITION. The block's sequencer (42_job_control.md R145 to R150): which symbol the position (PHASE, BITSLEFT, SRC) selects,
and the two steps that emit nothing.
-/

namespace Sys2Proof.Machine

/-- The symbol the block step emits, if the step emits one (R145): LEADER (R146), a bit (R147), a record of a SER job (R149),
TRAILER (R150). -/
def State.selected (s : State) : Option Instr :=
  match s.st, s.phase, s.opl with
  | .busy, .leader, some .enc => some .leader
  | .busy, .leader, some .encser => some .leader
  | .busy, .data, some .enc => if s.bitsLeft = 0 then none else some (decodeBit s.selectedBit)
  | .busy, .data, some .encser => if s.bitsLeft = 0 then none else some (decodeBit s.selectedBit)
  | .busy, .data, some .ser =>
    match s.src with
    | p :: q :: _ => some (.record p q)
    | _ => none
  | .busy, .trailer, some .encser => some .trailer
  | .busy, .trailer, some .ser => some .trailer
  | _, _, _ => none

/-- The pair (pulse, space) of the symbol the sequencer selects; the trailer is no pair. -/
def State.selectedPair (s : State) : Option (Dur × Dur) :=
  match s.selected with
  | some .leader => some (leaderPulse, leaderSpace)
  | some .bit0 => some (bitPulse, spaceZero)
  | some .bit1 => some (bitPulse, spaceOne)
  | some (.record p q) => some (p, q)
  | _ => none

/-- The sequencer's move past a pair that has been emitted: PHASE to DATA after the leader (R146), BITSLEFT down after a bit
(R147), two words off SRC after a record of a SER job (R149). -/
def State.advance (s : State) : State :=
  match s.phase, s.opl with
  | .leader, _ => { s with phase := .data }
  | .data, some .ser => { s with src := s.src.drop 2 }
  | .data, _ => { s with bitsLeft := bitsDown s.bitsLeft }
  | _, _ => s

/-- The byte load of R147. -/
def State.load (w : Word) (rest : List Word) (s : State) : State :=
  { s with shreg := byteOf w, src := rest, bitsLeft := 8 }

/-- The payload-exhausted step: ENC finishes (R147), the byte modes go on to the trailer (R147, R149). -/
def State.exhaust (s : State) : State :=
  match s.opl with
  | some .enc => { s with phase := .ended, st := .done }
  | _ => { s with phase := .trailer }

/-- An unreachable state (60_exceptions.md R207): ST = BUSY with PHASE = END, or in the data phase of SER with one word left. The
other positions of a BUSY block to which no case of R145 applies are unreachable too (DEDUCED, log 7). -/
def State.unreachable (s : State) : Bool :=
  match s.st, s.phase, s.opl, s.src with
  | .busy, .ended, _, _ => true
  | .busy, .data, some .ser, [_] => true
  | .busy, _, none, _ => true
  | .busy, .leader, some .ser, _ => true
  | .busy, .trailer, some .enc, _ => true
  | _, _, _, _ => false

/-- The block step where the sequencer selects no symbol: the load or the payload-exhausted step. Every other position is
`unreachable state` (R145, R149, R207; log 7). -/
def bookkeepingStep (s : State) : Host.Outcome State Fault Refusal :=
  match s.st, s.phase, s.opl, s.src with
  | .busy, .data, some .enc, w :: rest => .next (s.load w rest)
  | .busy, .data, some .encser, w :: rest => .next (s.load w rest)
  | .busy, .data, some _, [] => .next s.exhaust
  | _, _, _, _ => .fault .unreachableState

end Sys2Proof.Machine
end

