-- ==== Sys2Proof/Machine/Symbols.lean ====
section
/-!
DEFINITION. The symbols the block emits: LEADER, BIT0, BIT1 (40_pulse_encoder.md R101 to R103), REC and TRAILER
(41_buffer_serializer.md R121, R122), each with the sequencer's move past it (42_job_control.md R146 to R150). A symbol is
emitted only where the sequencer selects it (log 8).
-/

namespace Sys2Proof.Machine

/-- LEADER: `Emit(4350, 4350)`, PHASE to DATA (R101, R146). -/
def execLeader (s : State) : Host.Outcome State Fault Refusal :=
  if s.selected = some .leader then .next (s.emit leaderPulse leaderSpace).advance else .fault .notSelected

/-- BIT0: `Emit(460, 600)`, BITSLEFT down (R102, R147). -/
def execBit0 (s : State) : Host.Outcome State Fault Refusal :=
  if s.selected = some .bit0 then .next (s.emit bitPulse spaceZero).advance else .fault .notSelected

/-- BIT1: `Emit(460, 1600)`, BITSLEFT down (R103, R147). -/
def execBit1 (s : State) : Host.Outcome State Fault Refusal :=
  if s.selected = some .bit1 then .next (s.emit bitPulse spaceOne).advance else .fault .notSelected

/-- REC: the record of the selected pair is appended to OUTB, in the byte modes (R121, R78). In SER mode that is the block
step itself (R149); in ENCSER mode the selected leader or bit is written as its record (R148). -/
def execRecord (p q : Dur) (s : State) : Host.Outcome State Fault Refusal :=
  if s.opl ≠ some .enc ∧ s.selectedPair = some (p, q) then
    .next { s with outb := s.outb ++ recordBytes p q }.advance
  else .fault .notSelected

/-- TRAILER: OUTB ends `CA 01 00 00`, and the job is done (R122, R150). -/
def execTrailer (s : State) : Host.Outcome State Fault Refusal :=
  if s.selected = some .trailer then
    .next { s with outb := s.outb ++ trailerBytes, phase := .ended, st := .done }
  else .fault .notSelected

end Sys2Proof.Machine
end

