-- ==== Sys2Proof/Machine/Dispatch.lean ====
section
/-!
DEFINITION. One arm per row of the opcode table.
-/

namespace Sys2Proof.Machine

def exec (i : Instr) (s : State) : Host.Outcome State Fault Refusal :=
  match i with
  -- CMD
  | .encser payload => Sys2Proof.Machine.execEncser payload s
  | .enc payload => Sys2Proof.Machine.execEnc payload s
  | .ser payload => Sys2Proof.Machine.execSer payload s
  | .illegal word payload => Sys2Proof.Machine.execIllegal word payload s
  -- BIT, PAIR, TRL
  | .bit0 => Sys2Proof.Machine.execBit0 s
  | .bit1 => Sys2Proof.Machine.execBit1 s
  | .leader => Sys2Proof.Machine.execLeader s
  | .record pulse space => Sys2Proof.Machine.execRecord pulse space s
  | .trailer => Sys2Proof.Machine.execTrailer s
  -- HOST
  | .issue cmd payload => Sys2Proof.Machine.execIssue cmd payload s
  | .wait => Sys2Proof.Machine.execWait s
  | .rdreg n => Sys2Proof.Machine.execRdreg n s
  | .rdout i' => Sys2Proof.Machine.execRdout i' s
  | .reset => Sys2Proof.Machine.execReset s

end Sys2Proof.Machine
end

