-- ==== Sys2Proof/Machine/Interleave.lean ====
section
/-!
DEFINITION. The interleaving of the two agents (20_memory.md R60, 42_job_control.md R140): which of them may move, and which
moves where both may.
-/

namespace Sys2Proof.Machine

/-- The host may move: its next action is enabled. -/
def State.hostEnabled (s : State) : Bool :=
  match s.program with
  | [] => false
  | a :: _ => actionEnabled s a

/-- The block step is enabled exactly when ST = BUSY (R145). -/
def State.blockEnabled (s : State) : Bool := s.st == .busy

/-- Both agents may move, so the interleaving is free (93_implementation_defined.md item 9). -/
def State.contended (s : State) : Bool := s.hostEnabled && s.blockEnabled

/-- The agent the interleaving chooses where both may move: the next choice the run is given, else a free one. -/
def State.choice (s : State) : Agent :=
  match s.choices with
  | a :: _ => a
  | [] => Config.schedule s.turn

/-- A choice has been made. -/
def State.afterChoice (s : State) : State :=
  { s with choices := s.choices.tail, turn := s.turn + 1 }

/-- The agent that moves next; none where neither may, and the machine keeps all its state (60_exceptions.md R206). -/
def State.mover (s : State) : Option Agent :=
  if s.contended then some s.choice
  else if s.hostEnabled then some .host
  else if s.blockEnabled then some .block
  else none

/-- The state in which the mover takes its step: a choice is used up only where both agents could move. -/
def State.settled (s : State) : State := if s.contended then s.afterChoice else s

end Sys2Proof.Machine
end

