-- ==== Sys2Proof/Machine/Step.lean ====
section
/-!
DEFINITION. One step: the agent that moves takes one atomic transition (20_memory.md R58, R60).
-/

namespace Sys2Proof.Machine

/-- The host takes its next action. -/
def hostStep (s : State) : Host.Outcome State Fault Refusal :=
  match s.program with
  | [] => .next s
  | a :: _ => exec a.toInstr s

/-- The block takes one block step (42_job_control.md R145): it emits the selected symbol, or it loads or finishes. -/
def blockStep (s : State) : Host.Outcome State Fault Refusal :=
  match s.selected with
  | some i => exec i s
  | none => bookkeepingStep s

/-- The step of the agent that moves. Where neither may, the state stays as it is (R206; log 3). -/
def moverStep (s : State) : Host.Outcome State Fault Refusal :=
  match s.mover with
  | some .host => hostStep s.settled
  | some .block => blockStep s.settled
  | none => .next s

/-- One step of the machine. A state no rule reaches is a fault whichever agent would move (60_exceptions.md R207). -/
def step (s : State) : Host.Outcome State Fault Refusal :=
  if s.unreachable then .fault .unreachableState else moverStep s

/-- Where the host could move too, the next choice is the block. -/
def State.blockNext (s : State) : State :=
  if s.contended then { s with choices := .block :: s.choices } else s

/-- `s` with the instruction of a table word placed so that the very next step runs it (log 12).
A command word becomes the host's next action, ISSUE of that word with no payload, in a state that may issue. A bit becomes the
selected bit of a job in its data phase, a record the next pair of a SER job; where the host could move too, the block is chosen. -/
def State.withFetchWord (s : State) (nbits w : Nat) : State :=
  match tableCode nbits w with
  | some (.cmd words) =>
    { s with
      st := if s.st = .busy then .idle else s.st
      program := .issue (words.headD 0) words.tail :: s.program }
  | some (.bit b) =>
    State.blockNext
      { s with
        st := .busy
        phase := .data
        opl := if s.opl = some .encser then some .encser else some .enc
        shreg := if b = 1#1 then 0xFF#8 else 0x00#8
        bitsLeft := if s.bitsLeft = 0 then 8 else s.bitsLeft }
  | some (.pair bytes) =>
    State.blockNext
      { s with
        st := .busy
        phase := .data
        opl := some .ser
        src := (rebuiltValue bytes 0).getD 0 :: (rebuiltValue bytes 1).getD 0 :: s.src }
  | _ => s

end Sys2Proof.Machine
end

