-- ==== Sys2Proof/Machine/HostContext.lean ====
section
/-!
DEFINITION. Host context (44_host_context.md): HexDecoder before the block and DeviceTransmitter after it, as pure functions. They
bind only a model of the host (R170); no definition of the block reads anything here (00_scope.md R5). The order of a
transmission is that of R179 (90_conflicts.md C1).
-/

namespace Sys2Proof.Machine

/-! ### HexDecoder (R171, R172) -/

/-- A decoding failure with its offending substring, which may be any string (93_implementation_defined.md item 14). -/
structure HexFailure where
  offending : List Char
deriving DecidableEq, Repr

/-- The value of a hex digit of the accepted set (item 13): 0–9 always, the letters as `letters` says. -/
def hexDigit (letters : HexLetters) (c : Char) : Option Nat :=
  let n := c.toNat
  if 48 ≤ n ∧ n ≤ 57 then some (n - 48)
  else if 97 ≤ n ∧ n ≤ 102 ∧ letters ≠ .upper then some (n - 87)
  else if 65 ≤ n ∧ n ≤ 70 ∧ letters ≠ .lower then some (n - 55)
  else none

/-- The bytes of the consecutive 2-character groups, the first character the high nibble (R171; PRESUMED, log 15); none for an odd
length or a character that is no hex digit. -/
def hexGroups (letters : HexLetters) : List Char → Option (List Byte)
  | [] => some []
  | [_] => none
  | a :: b :: rest =>
    match hexDigit letters a, hexDigit letters b, hexGroups letters rest with
    | some x, some y, some bs => some (BitVec.ofNat 8 (16 * x + y) :: bs)
    | _, _, _ => none

/-- HexDecoder: defined on every input, with bytes or a failure (R171, 90_conflicts.md C2). -/
def hexDecode (letters : HexLetters) (text : List Char) : Except HexFailure (List Byte) :=
  match hexGroups letters text with
  | some bs => .ok bs
  | none => .error ⟨Config.offendingSubstring text⟩

/-! ### The host's use of the block (R178, R179) -/

/-- The only buffer a host may hand on: OUTB of an ENCSER job that is DONE (R178). -/
def State.completeBuffer (s : State) : Option (List Byte) :=
  if s.st = .done ∧ s.opl = some .encser then some s.outb else none

/-- The payload words of decoded bytes (30_encoding.md R84). -/
def payloadOf (bs : List Byte) : List Word := bs.map (·.setWidth 32)

/-- The result of the block's ENCSER job for decoded bytes: an error of the ISSUE, or the buffer at DONE
(42_job_control.md R155, which lets a model take the job's result by the functions). -/
def encodePath (maxItems : Nat) (bs : List Byte) : Except ErrCode (List Byte) :=
  match payloadError maxItems .encser (payloadOf bs) with
  | some e => .error e
  | none => .ok (encodedBuffer bs)

/-! ### DeviceTransmitter (R173 to R177, R181) -/

/-- DeviceConfig (R173) with its defaults; no range is checked (item 15). -/
structure DeviceConfig where
  devicePath : List Char
  carrierFrequencyHz : Word := 38000#32
  dutyCyclePercent : Word := 50#32
deriving DecidableEq, Repr

/-- The host's 32-bit integers that a control call points at, the two of DeviceConfig. A cell's name stands for its address, whose
number the spec leaves open (log 17). -/
inductive HostCell where
  | carrierFrequencyHz
  | dutyCyclePercent
deriving DecidableEq, Repr

/-- The value at a cell's address. The configuration is never mutated (R173). -/
def DeviceConfig.load (cfg : DeviceConfig) : HostCell → Word
  | .carrierFrequencyHz => cfg.carrierFrequencyHz
  | .dutyCyclePercent => cfg.dutyCyclePercent

/-- The two control calls (R174). -/
inductive ControlCall where
  | carrier
  | dutyCycle
deriving DecidableEq, Repr

/-- SET_SEND_CARRIER and SET_SEND_DUTY_CYCLE (R174). -/
def ControlCall.code : ControlCall → Word
  | .carrier => 0x40046913#32
  | .dutyCycle => 0x40046915#32

/-- The address a control call passes (R174, R175). -/
def ControlCall.parameter : ControlCall → HostCell
  | .carrier => .carrierFrequencyHz
  | .dutyCycle => .dutyCyclePercent

/-- How a device is opened. -/
inductive AccessMode where
  | read
  | write
  | readWrite
deriving DecidableEq, Repr

/-- What the host does to the device. A control call passes the address of a 32-bit integer, not its value (R175). -/
inductive DeviceOp where
  | open (path : List Char) (mode : AccessMode)
  | control (code : Word) (address : HostCell)
  | write (buffer : List Byte)
  | release
deriving DecidableEq, Repr

/-- The code and the parameter a driver gets by each control call, read at the address the call passes (R175). -/
def controlsSeen (cfg : DeviceConfig) : List DeviceOp → List (Word × Word)
  | [] => []
  | .control code address :: ops => (code, cfg.load address) :: controlsSeen cfg ops
  | .open _ _ :: ops => controlsSeen cfg ops
  | .write _ :: ops => controlsSeen cfg ops
  | .release :: ops => controlsSeen cfg ops

/-- What a blocking device call comes to: success, failure with a cause (R174), or no answer, which stalls the caller (R181). -/
inductive Answer where
  | succeeded
  | failed (cause : List Char)
  | stalled
deriving DecidableEq, Repr

/-- The device's answers, each free (item 16). -/
structure DeviceResults where
  opening : Answer
  carrier : Answer
  dutyCycle : Answer
  writing : Answer
deriving DecidableEq, Repr

/-- The host's errors (R177). A block error is an InternalInvariantError that carries the ERR code (D29). -/
inductive TransmitError where
  | decode (offending : List Char)
  | deviceOpen (path cause : List Char)
  | deviceControl (operation : ControlCall) (cause : List Char)
  | deviceWrite (cause : List Char)
  | internalInvariant (code : ErrCode)
deriving DecidableEq, Repr

/-- The transmitter's states (R176). -/
inductive HandleState where
  | closed
  | opened
  | carrierSet
  | dutyCycleSet
  | written
deriving DecidableEq, Repr

/-- What the caller gets of a transmission: its Result (R174), or nothing, where it is stalled in a device call: no timeout and no
cancellation ends the call (R181). -/
inductive TransmitOutcome where
  | succeeded
  | failed (e : TransmitError)
  | stalled
deriving DecidableEq, Repr

/-- One transmission: the device operations begun, in order, the handle's states in order, and the outcome. -/
structure Transmission where
  ops : List DeviceOp
  states : List HandleState
  outcome : TransmitOutcome
deriving DecidableEq, Repr

/-- Step 6 of R174: the handle is released and closed, after the operations and states so far (R176, R177). -/
def releasing (ops : List DeviceOp) (states : List HandleState) (outcome : TransmitOutcome) : Transmission :=
  ⟨ops ++ [.release], states ++ [.closed], outcome⟩

/-- Steps 1 to 3, 5 and 6 of R174 for a complete buffer: both control calls before the single write, and the handle released on
every path after a successful open on which the device answers (R174, R177). Each call blocks, so a call without an answer is the
last operation (R181). -/
def deviceSequence (r : DeviceResults) (cfg : DeviceConfig) (buffer : List Byte) : Transmission :=
  let open' := DeviceOp.open cfg.devicePath .readWrite
  let carrier := DeviceOp.control ControlCall.carrier.code ControlCall.carrier.parameter
  let duty := DeviceOp.control ControlCall.dutyCycle.code ControlCall.dutyCycle.parameter
  match r.opening with
  | .stalled => ⟨[open'], [.closed], .stalled⟩
  | .failed cause => ⟨[open'], [.closed], .failed (.deviceOpen cfg.devicePath cause)⟩
  | .succeeded =>
    match r.carrier with
    | .stalled => ⟨[open', carrier], [.closed, .opened], .stalled⟩
    | .failed cause => releasing [open', carrier] [.closed, .opened] (.failed (.deviceControl .carrier cause))
    | .succeeded =>
      match r.dutyCycle with
      | .stalled => ⟨[open', carrier, duty], [.closed, .opened, .carrierSet], .stalled⟩
      | .failed cause =>
        releasing [open', carrier, duty] [.closed, .opened, .carrierSet] (.failed (.deviceControl .dutyCycle cause))
      | .succeeded =>
        let ops := [open', carrier, duty, .write buffer]
        let states := [HandleState.closed, .opened, .carrierSet, .dutyCycleSet]
        match r.writing with
        | .stalled => ⟨ops, states, .stalled⟩
        | .failed cause => releasing ops states (.failed (.deviceWrite cause))
        | .succeeded => releasing ops (states ++ [.written]) .succeeded

/-- `transmit` (R174) in the order of R179: decoding and the encode path run before any device interaction, and a failure of
either ends the transmission without opening the device. -/
def transmit (maxItems : Nat) (letters : HexLetters) (r : DeviceResults) (cfg : DeviceConfig) (text : List Char) :
    Transmission :=
  match hexDecode letters text with
  | .error f => ⟨[], [.closed], .failed (.decode f.offending)⟩
  | .ok bs =>
    match encodePath maxItems bs with
    | .error code => ⟨[], [.closed], .failed (.internalInvariant code)⟩
    | .ok buffer => deviceSequence r cfg buffer

/-- A transmission of this instance's host: MAX_ITEMS is the block's, the hex digits are the open set of item 13. -/
def hostTransmit (r : DeviceResults) (cfg : DeviceConfig) (text : List Char) : Transmission :=
  transmit Config.maxItems Config.hexLetters r cfg text

end Sys2Proof.Machine
end

