-- ==== Sys2Proof/Machine/Assembler.lean ====
section
/-!
DEFINITION. Host programs in the spec's assembly syntax (30_encoding.md R83) with its pseudo-instructions (R84): a line's text, the
line it spells, and the host actions it stands for (R85).
-/

namespace Sys2Proof.Machine

/-- `<cmd>` of R83: a name, or a literal number. -/
inductive AsmCmd where
  | named (op : Op)
  | literal (n : Nat)
deriving DecidableEq, Repr

/-- One line of a host program (R83, R84). -/
inductive AsmLine where
  | reset
  | issue (cmd : AsmCmd) (words : List Nat)
  | wait
  | rdreg (n : Nat)
  | rdout (i : Nat)
  | run (cmd : AsmCmd) (words : List Nat)
  | issueHex (cmd : AsmCmd) (text : List Char)
  | readall
deriving DecidableEq, Repr

/-- What a line comes to: the host's actions, and the DecodeError the host reports, if any (R84). -/
structure Expansion where
  actions : List HostAction
  reported : Option HexFailure
deriving DecidableEq, Repr

/-- A number as a 32-bit word; a number beyond 2^32 − 1 is rejected (R83). -/
def asmWord (n : Nat) : Option Word := if n < 2 ^ 32 then some (BitVec.ofNat 32 n) else none

/-- The words of a list of numbers. -/
def asmWords : List Nat → Option (List Word)
  | [] => some []
  | n :: rest =>
    match asmWord n, asmWords rest with
    | some w, some ws => some (w :: ws)
    | _, _ => none

/-- The command word a `<cmd>` stands for (R83). -/
def AsmCmd.word : AsmCmd → Option Word
  | .named op => some (cmdWord op)
  | .literal n => asmWord n

/-- The number a `<cmd>` is written as, if it is a literal. -/
def AsmCmd.numbers : AsmCmd → List Nat
  | .named _ => []
  | .literal n => [n]

/-- The ISSUE a command and its numbers spell. -/
def asmIssue (cmd : AsmCmd) (words : List Nat) : Option HostAction :=
  match cmd.word, asmWords words with
  | some c, some ws => some (.issue c ws)
  | _, _ => none

/-- The expansion of `readall` where OUTLEN reads `outlen` (R84). -/
def readallActions (outlen : Nat) : List HostAction :=
  .rdreg 3 :: (List.range outlen).map .rdout

/-- The actions of a line, in state `s` when the host comes to it (`readall` reads OUTLEN then); none where the line spells no
program (R83, R84). -/
def expandLine (letters : HexLetters) (s : State) : AsmLine → Option Expansion
  | .reset => some ⟨[.reset], none⟩
  | .issue cmd words => (asmIssue cmd words).map fun a => ⟨[a], none⟩
  | .wait => some ⟨[.wait], none⟩
  | .rdreg n => some ⟨[.rdreg n], none⟩
  | .rdout i => some ⟨[.rdout i], none⟩
  | .run cmd words => (asmIssue cmd words).map fun a => ⟨[a, .wait], none⟩
  | .issueHex cmd text =>
    match cmd.word, hexDecode letters text with
    | some c, .ok bs => some ⟨[.issue c (payloadOf bs)], none⟩
    | some _, .error f => some ⟨[], some f⟩
    | none, _ => none
  | .readall => some ⟨readallActions s.outLen.toNat, none⟩

/-- The numbers of a line that R83 bounds to 32 bits: a literal command word and the payload words. -/
def AsmLine.words : AsmLine → List Nat
  | .issue cmd ws => cmd.numbers ++ ws
  | .run cmd ws => cmd.numbers ++ ws
  | .issueHex cmd _ => cmd.numbers
  | .reset => []
  | .wait => []
  | .rdreg _ => []
  | .rdout _ => []
  | .readall => []

/-- The assembler's range check: a line with a number beyond 2^32 − 1 spells no program (R83). -/
def AsmLine.inRange (l : AsmLine) : Bool := l.words.all fun n => n < 2 ^ 32

/-- Actions given to the host, after those it has still to take (log 3). -/
def State.enqueue (actions : List HostAction) (s : State) : State := { s with program := s.program ++ actions }

/-! ### The text of a line (R83; log 18) -/

/-- A token of a line. -/
inductive Token where
  | name (cs : List Char)
  | number (n : Nat)
  | comma
  | openBracket
  | closeBracket
  | text (cs : List Char)
deriving DecidableEq, Repr

/-- The number a digit string spells in a base, continuing from `acc`. -/
def digitsValue (base : Nat) : List Char → Nat → Option Nat
  | [], acc => some acc
  | c :: cs, acc =>
    match hexDigit .both c with
    | some d => if d < base then digitsValue base cs (base * acc + d) else none
    | none => none

/-- A decimal or 0x-prefixed number (R83 of a payload word). That a literal command word, a register number and an index have the
same two forms, and that none of them may be 0b-prefixed as 00_scope.md R16 would allow, is the model's choice (DESIGN CHOICE,
log 18). -/
def numberValue : List Char → Option Nat
  | '0' :: 'x' :: c :: cs => digitsValue 16 (c :: cs) 0
  | c :: cs => digitsValue 10 (c :: cs) 0
  | [] => none

/-- The token a run of word characters spells (given in reverse): a number where it begins with a digit, else a name. -/
def wordToken (rev : List Char) : Option (List Token) :=
  match rev.reverse with
  | [] => some []
  | c :: cs =>
    if 48 ≤ c.toNat ∧ c.toNat ≤ 57 then (numberValue (c :: cs)).map fun n => [.number n]
    else some [.name (c :: cs)]

/-- The token a punctuation mark is. -/
def markToken (c : Char) : Option Token :=
  match c with
  | ',' => some .comma
  | '[' => some .openBracket
  | ']' => some .closeBracket
  | _ => none

/-- The tokens of a line: `quoted` is the (reversed) text inside a quotation so far, `word` the (reversed) word so far. A `;` begins
a comment (R83); the character 34 is the quotation mark. That a `;` inside a quotation begins no comment and is a character of the
text HexDecoder is given is the model's choice (DESIGN CHOICE, log 18). -/
def tokens : List Char → (quoted : Option (List Char)) → (word : List Char) → Option (List Token)
  | [], none, word => wordToken word
  | [], some _, _ => none
  | c :: cs, some q, word =>
    if c.toNat = 34 then (tokens cs none []).map fun rest => .text q.reverse :: rest
    else tokens cs (some (c :: q)) word
  | c :: cs, none, word =>
    if c = ';' then wordToken word
    else if c = ' ' then
      match wordToken word, tokens cs none [] with
      | some t, some rest => some (t ++ rest)
      | _, _ => none
    else if c.toNat = 34 then
      match wordToken word, tokens cs (some []) [] with
      | some t, some rest => some (t ++ rest)
      | _, _ => none
    else
      match markToken c with
      | some m =>
        match wordToken word, tokens cs none [] with
        | some t, some rest => some (t ++ m :: rest)
        | _, _ => none
      | none => tokens cs none (c :: word)

/-- The numbers of a bracketed list after its opening bracket, to the end of the line. -/
def listTail : List Token → Option (List Nat)
  | [.number n, .closeBracket] => some [n]
  | .number n :: .comma :: rest => (listTail rest).map (n :: ·)
  | _ => none

/-- `[<w0>, <w1>, …]`, possibly empty, to the end of the line. -/
def wordList : List Token → Option (List Nat)
  | [.openBracket, .closeBracket] => some []
  | .openBracket :: rest => listTail rest
  | _ => none

/-- The operation a command name of R83 stands for. -/
def opNamed (cs : List Char) : Option Op :=
  if cs = ['e', 'n', 'c', 's', 'e', 'r'] then some .encser
  else if cs = ['e', 'n', 'c'] then some .enc
  else if cs = ['s', 'e', 'r'] then some .ser
  else none

/-- The register number a register name of R83 stands for (10_state.md R22). -/
def registerNamed (cs : List Char) : Option Nat :=
  if cs = ['c', 'm', 'd'] then some 0
  else if cs = ['s', 't', 'a', 't', 'u', 's'] then some 1
  else if cs = ['e', 'r', 'r'] then some 2
  else if cs = ['o', 'u', 't', 'l', 'e', 'n'] then some 3
  else none

/-- `<cmd>`. -/
def commandOf : Token → Option AsmCmd
  | .name cs => (opNamed cs).map .named
  | .number n => some (.literal n)
  | _ => none

/-- The line a list of tokens spells. -/
def lineOf : List Token → Option AsmLine
  | [.name ['r', 'e', 's', 'e', 't']] => some .reset
  | [.name ['w', 'a', 'i', 't']] => some .wait
  | [.name ['r', 'e', 'a', 'd', 'a', 'l', 'l']] => some .readall
  | [.name ['r', 'd', 'r', 'e', 'g'], .name cs] => (registerNamed cs).map .rdreg
  | [.name ['r', 'd', 'r', 'e', 'g'], .number n] => some (.rdreg n)
  | [.name ['r', 'd', 'o', 'u', 't'], .number i] => some (.rdout i)
  | .name ['i', 's', 's', 'u', 'e'] :: c :: .comma :: rest =>
    match commandOf c, wordList rest with
    | some cmd, some ws => some (.issue cmd ws)
    | _, _ => none
  | .name ['r', 'u', 'n'] :: c :: .comma :: rest =>
    match commandOf c, wordList rest with
    | some cmd, some ws => some (.run cmd ws)
    | _, _ => none
  | [.name ['i', 's', 's', 'u', 'e', '.', 'h', 'e', 'x'], c, .comma, .text cs] =>
    (commandOf c).map fun cmd => .issueHex cmd cs
  | _ => none

/-- The line a list of tokens spells, where its numbers are in range (R83). -/
def assembleLine (ts : List Token) : Option AsmLine :=
  match lineOf ts with
  | some l => if l.inRange then some l else none
  | none => none

/-- The line a text spells; none where it spells none. A line that is empty or only a comment spells no line and is skipped by
`programLines`. -/
def parseLine (text : List Char) : Option AsmLine :=
  match tokens text none [] with
  | some ts => assembleLine ts
  | none => none

/-- The lines of a program text, one per line of the text; none where some line that is not blank spells none, a number out of
range among them: such a text spells no program (R83). -/
def programLines : List (List Char) → Option (List AsmLine)
  | [] => some []
  | text :: rest =>
    match tokens text none [], programLines rest with
    | some [], some ls => some ls
    | some ts, some ls => (assembleLine ts).map (· :: ls)
    | _, _ => none

end Sys2Proof.Machine
end

