-- ==== Sys2Proof/Safety.lean ====
section
/-!
DEFINITION. What claims speak of: the next state of an outcome, runs, the output a job has still to emit, the number of block
steps it has still to take, and the invariant of the reachable states.
-/

namespace Sys2Proof.Machine

/-- The next state, where there is one. -/
def nextOf : Host.Outcome State Fault Refusal → Option State
  | .next s => some s
  | .fault _ => none
  | .refused _ => none

/-- `k` block steps and no host action. -/
def blockRun : Nat → State → Host.Outcome State Fault Refusal
  | 0, s => .next s
  | k + 1, s =>
    match blockStep s with
    | .next t => blockRun k t
    | .fault f => .fault f
    | .refused r => .refused r

/-- `k` steps of the machine. -/
def run (k : Nat) (s : State) : Host.Outcome State Fault Refusal := Sys2Proof.core.run k s

/-! ### The rest of a job -/

/-- The pairs of the `n` low bits of a byte, the highest of them first. -/
def bitPairs (b : Byte) : Nat → List (Dur × Dur)
  | 0 => []
  | n + 1 => (bitPulse, bitSpace (b.getLsbD n)) :: bitPairs b n

/-- The pairs of a list of IN8 words. -/
def wordPairs (ws : List Word) : List (Dur × Dur) := ws.flatMap fun w => bitPairs (byteOf w) 8

/-- The pairs the job has still to emit. -/
def State.pendingPairs (s : State) : List (Dur × Dur) :=
  match s.st, s.phase, s.opl with
  | .busy, .leader, _ => (leaderPulse, leaderSpace) :: wordPairs s.src
  | .busy, .data, some .ser => pairsOf s.src
  | .busy, .data, _ => bitPairs s.shreg s.bitsLeft.val ++ wordPairs s.src
  | _, _, _ => []

/-- OUTD once the job is done. -/
def State.finalOutd (s : State) : List Dur :=
  if s.opl = some .enc then s.outd ++ s.pendingPairs.flatMap (fun q => [q.1, q.2]) else s.outd

/-- OUTB once the job is done. -/
def State.finalOutb (s : State) : List Byte :=
  if s.st = .busy ∧ s.opl ≠ some .enc then
    s.outb ++ s.pendingPairs.flatMap (fun q => recordBytes q.1 q.2) ++ trailerBytes
  else s.outb

/-- The block steps the job has still to take (42_job_control.md R156). -/
def State.stepsLeft (s : State) : Nat :=
  match s.st, s.phase, s.opl with
  | .busy, .leader, some .enc => 2 + 9 * s.src.length
  | .busy, .leader, _ => 3 + 9 * s.src.length
  | .busy, .data, some .enc => s.bitsLeft.val + 9 * s.src.length + 1
  | .busy, .data, some .ser => s.src.length / 2 + 2
  | .busy, .data, _ => s.bitsLeft.val + 9 * s.src.length + 2
  | .busy, .trailer, _ => 1
  | _, _, _ => 0

/-- The block steps of a whole job of `n` payload words (R156). -/
def jobSteps (op : Op) (n : Nat) : Nat :=
  match op with
  | .enc => 2 + 9 * n
  | .encser => 3 + 9 * n
  | .ser => n / 2 + 2

/-- What OUTD and OUTB hold when a job is done, by the functions of the source (R155). -/
def jobOutputs (op : Op) (payload : List Word) : List Dur × List Byte :=
  match op with
  | .enc => (encodePulses (payloadBytes payload), [])
  | .encser =>
    match serialize (encodePulses (payloadBytes payload)) with
    | .ok bytes => ([], bytes)
    | .error _ => ([], [])
  | .ser =>
    match serialize payload with
    | .ok bytes => ([], bytes)
    | .error _ => ([], [])

/-! ### What a step is about -/

/-- The actions that discard the output: ISSUE and RESET (20_memory.md R65, 70_reset_and_hazards.md R226). -/
def discards : HostAction → Bool
  | .issue _ _ => true
  | .reset => true
  | _ => false

/-- The next step takes an ISSUE or a RESET. -/
def State.discarding (s : State) : Prop :=
  s.mover = some .host ∧ ∃ a rest, s.program = a :: rest ∧ discards a = true

/-- Two states agree on everything the block holds. -/
def sameBlock (s t : State) : Prop :=
  s.cmd = t.cmd ∧ s.st = t.st ∧ s.err = t.err ∧ s.opl = t.opl ∧ s.src = t.src ∧ s.phase = t.phase ∧ s.shreg = t.shreg ∧
    s.bitsLeft = t.bitsLeft ∧ s.outd = t.outd ∧ s.outb = t.outb

/-- Two states agree on everything but what the block holds. -/
def sameHost (s t : State) : Prop :=
  s.program = t.program ∧ s.responses = t.responses ∧ s.choices = t.choices ∧ s.turn = t.turn

/-! ### The invariant (10_state.md R35; 20_memory.md R58; 41_buffer_serializer.md R127) -/

/-- No job is loaded: every internal variable as ISSUE and RESET leave it. -/
def State.cleared (s : State) : Prop :=
  s.opl = none ∧ s.src = [] ∧ s.phase = .ended ∧ s.shreg = 0x00#8 ∧ s.bitsLeft = 0

/-- A position of the sequencer that a running job can have. -/
def State.running (s : State) : Prop :=
  match s.phase, s.opl with
  | .leader, some .enc => s.bitsLeft = 0 ∧ s.outd = []
  | .leader, some .encser => s.bitsLeft = 0 ∧ s.outb = []
  | .data, some .enc => True
  | .data, some .encser => True
  | .data, some .ser => s.src.length % 2 = 0 ∧ s.bitsLeft = 0
  | .trailer, some .encser => s.src = [] ∧ s.bitsLeft = 0
  | .trailer, some .ser => s.src = [] ∧ s.bitsLeft = 0
  | _, _ => False

/-- What each value of ST says of the rest of the state (R25, R35). -/
def State.statusFits (s : State) : Prop :=
  match s.st with
  | .idle => s.cleared ∧ s.cmd = 0#32 ∧ s.err = .none
  | .busy => s.running ∧ s.err = .none
  | .done => s.opl ≠ none ∧ s.src = [] ∧ s.phase = .ended ∧ s.bitsLeft = 0 ∧ s.err = .none
  | .error => s.cleared ∧ s.err ≠ .none

/-- OUTD is used only by ENC, OUTB only by the byte modes (R33 to R35). -/
def State.outputFits (s : State) : Prop :=
  (s.opl ≠ some .enc → s.outd = []) ∧ (s.opl = none ∨ s.opl = some .enc → s.outb = [])

/-- The output holds whole symbols only (R58). -/
def State.wholeSymbols (s : State) : Prop :=
  s.outd.length % 2 = 0 ∧ (s.st = .busy → s.outb.length % 8 = 0) ∧
    (s.st = .done → s.opl ≠ some .enc → s.outb.length % 8 = 4)

/-- The whole output, emitted and to come, fits MAX_ITEMS (R105, R125, R127). -/
def State.outputBounded (s : State) : Prop :=
  s.finalOutd.length ≤ 2 + 16 * Config.maxItems ∧ s.finalOutb.length ≤ 64 * Config.maxItems + 12

/-- The invariant of every state that reset can lead to. -/
structure State.Inv (s : State) : Prop where
  status : s.statusFits
  latched : ∀ op, s.opl = some op → s.cmd = cmdWord op
  outputs : s.outputFits
  symbols : s.wholeSymbols
  bounded : s.outputBounded

end Sys2Proof.Machine
end

