-- ==== Sys2Proof/Certificates/Slice0/Obligations.lean ====
section
/-!
DEFINITION. The statements for the provers. Each says which rules of spec/ it formalises.
-/

open Sys2Proof Sys2Proof.Machine

/-! ## Encoding -/

/-- Every well-formed instruction is what the decoder reads from its code, with every operand (30_encoding.md R70 to R79, R85). -/
def Obligations.DecodeOfEncodeIsTheInstruction : Prop :=
  ∀ i : Instr, i.wf = true → Sys2Proof.decode (Sys2Proof.encode i) = .ok i

/-- R73, R71: the command decoder, by the fields of the word and by the whole word. -/
def Obligations.CommandDecoderIsTotalAndExact : Prop :=
  ∀ c : Word,
    (decodeOp c = none ↔ c.extractLsb' 2 30 ≠ 0#30 ∨ c.extractLsb' 0 2 = 0#2) ∧
    (decodeOp c = some .encser ↔ c = 0x00000001#32) ∧
    (decodeOp c = some .enc ↔ c = 0x00000002#32) ∧
    (decodeOp c = some .ser ↔ c = 0x00000003#32) ∧
    (decodeOp c = none ↔ c ≠ 0x00000001#32 ∧ c ≠ 0x00000002#32 ∧ c ≠ 0x00000003#32)

/-- Words written out from the opcode table and R72, R76 decode to their rows. That a lone 32-bit word is read as a command with an empty
payload, and an 8-bit one as BIT, is the model's choice (log 12). -/
def Obligations.TabledWordsDecodeToTheirRows : Prop :=
  decodeTableWord 32 0b00000000000000000000000000000001 = some (.encser []) ∧
  decodeTableWord 32 0b00000000000000000000000000000010 = some (.enc []) ∧
  decodeTableWord 32 0b00000000000000000000000000000011 = some (.ser []) ∧
  decodeTableWord 32 0b00000000000000000000000000000000 = some (.illegal 0#32 []) ∧
  decodeTableWord 32 0b10000000000000000000000000000001 = some (.illegal 0x80000001#32 []) ∧
  decodeTableWord 8 0b0 = some .bit0 ∧
  decodeTableWord 8 0b1 = some .bit1

/-- A step runs the instruction the decoder reads from a table word placed before it, from every state (log 12 says how a word is
placed; 30_encoding.md R72, R76, R78). -/
def Obligations.PlacedWordIsRunByTheNextStep : Prop :=
  ∀ (s : State) (nbits w : Nat) (i : Instr), decodeTableWord nbits w = some i →
    step (s.withFetchWord nbits w) = exec i (s.withFetchWord nbits w).settled

/-- A step runs the host's next action or the block's selected symbol, or the load or payload-exhausted step where none is selected: the
host's where the block has no step, the block's where the host is not enabled, and where both may move the one the interleaving chooses,
its choice then used up (42_job_control.md R140, R145, R147, R149; 20_memory.md R60; the interleaving's form is log 1's). A host
action runs in the states that are not unreachable ones (60_exceptions.md R207); UnreachableStatesFault says what a step does in those.
An ISSUE is exec of the instruction its command word decodes to (30_encoding.md R72, R73, 42_job_control.md R141 to R144; DEDUCED,
log 10). -/
def Obligations.StepRunsTheNextInstruction : Prop :=
  (∀ s a rest, s.program = a :: rest → actionEnabled s a = true → s.st ≠ .busy → step s = exec a.toInstr s) ∧
  (∀ s i, s.st = .busy → s.hostEnabled = false → s.selected = some i → step s = exec i s) ∧
  (∀ s, s.st = .busy → s.hostEnabled = false → s.selected = none → step s = bookkeepingStep s) ∧
  (∀ s a rest cs, s.program = a :: rest → actionEnabled s a = true → s.st = .busy → s.unreachable = false →
    s.choices = .host :: cs → step s = exec a.toInstr { s with choices := cs, turn := s.turn + 1 }) ∧
  (∀ s i a rest cs, s.program = a :: rest → actionEnabled s a = true → s.st = .busy → s.choices = .block :: cs →
    s.selected = some i → step s = exec i { s with choices := cs, turn := s.turn + 1 }) ∧
  (∀ s a rest cs, s.program = a :: rest → actionEnabled s a = true → s.st = .busy → s.choices = .block :: cs →
    s.selected = none → step s = bookkeepingStep { s with choices := cs, turn := s.turn + 1 }) ∧
  (∀ s i a rest, s.program = a :: rest → actionEnabled s a = true → s.st = .busy → s.choices = [] → s.selected = some i →
    step s = exec a.toInstr { s with turn := s.turn + 1 } ∨ step s = exec i { s with turn := s.turn + 1 }) ∧
  (∀ s a rest, s.program = a :: rest → actionEnabled s a = true → s.st = .busy → s.unreachable = false → s.choices = [] →
    s.selected = none →
    step s = exec a.toInstr { s with turn := s.turn + 1 } ∨ step s = bookkeepingStep { s with turn := s.turn + 1 }) ∧
  (∀ s c p, exec (.issue c p) s = exec (decodeCommand c p) s)

/-! ## ISSUE and the command rows -/

/-- R141, R192 to R194: ISSUE in every state and for every word and payload, the checks written out, by what the block holds afterwards. It
is enabled only when ST ≠ BUSY. That exec answers the unchanged block while ST = BUSY, where R141 gives the action no step, is the
model's form of the hold (log 9). -/
def Obligations.IssueValidatesAndStartsTheJob : Prop :=
  ∀ (s : State) (c : Word) (p : List Word),
    let base : State := { s with
      cmd := c, outd := [], outb := [], src := [], shreg := 0#8, bitsLeft := 0, phase := .ended, opl := none }
    let failed (e : ErrCode) : State := { base with err := e, st := .error }
    (actionEnabled s (.issue c p) = true ↔ s.st ≠ .busy) ∧
    ∃ t, exec (.issue c p) s = .next t ∧ sameBlock t (
      if s.st = .busy then s
      else if c.extractLsb' 2 30 ≠ 0#30 ∨ c.extractLsb' 0 2 = 0#2 then failed .illegalCmd
      else if p.length > Config.maxItems then failed .tooLong
      else if c ≠ 3#32 ∧ ∃ w ∈ p, w.extractLsb' 8 24 ≠ 0#24 then failed .badInput
      else if c = 3#32 ∧ p.length % 2 = 1 then failed .oddLength
      else { base with
        opl := if c = 1#32 then some .encser else if c = 2#32 then some .enc else some .ser
        src := p, err := .none, st := .busy, phase := if c = 3#32 then .data else .leader })

/-- The command rows complete: with a payload of at most MAX_ITEMS words of the row's format, in a state that is not BUSY, ENCSER, ENC
and SER start their job; everything but the variables named keeps its value (42_job_control.md R141 to R144). -/
def Obligations.CommandRowsStartTheirJobs : Prop :=
  ∀ (s : State) (p : List Word), s.st ≠ .busy → p.length ≤ Config.maxItems →
    let started (c : Word) (op : Op) (ph : Phase) : State := { s with
      cmd := c, st := .busy, err := .none, opl := some op, src := p, phase := ph, shreg := 0#8, bitsLeft := 0, outd := [],
      outb := [], program := s.program.tail }
    ((∀ w ∈ p, w.extractLsb' 8 24 = 0#24) → exec (.encser p) s = .next (started 1#32 .encser .leader)) ∧
    ((∀ w ∈ p, w.extractLsb' 8 24 = 0#24) → exec (.enc p) s = .next (started 2#32 .enc .leader)) ∧
    (p.length % 2 = 0 → exec (.ser p) s = .next (started 3#32 .ser .data))

/-- R192, R196: an ILLEGAL row completes by reporting ILLEGAL_CMD: CMD holds the word, and there is no job and no output. -/
def Obligations.IllegalWordReportsIllegalCmd : Prop :=
  ∀ (s : State) (w : Word) (p : List Word), s.st ≠ .busy → (Instr.illegal w p).wf = true →
    exec (.illegal w p) s = .next { s with
      cmd := w, st := .error, err := .illegalCmd, opl := none, src := [], phase := .ended, shreg := 0#8, bitsLeft := 0, outd := [],
      outb := [], program := s.program.tail }

/-- R194, R192, on the command rows: a payload that is too long reports TOO_LONG before anything else of it; then a byte-mode word
with bits 31:8 set reports BAD_INPUT; then an odd SER payload reports ODD_LENGTH. That the taken action leaves the
host's program is the model's form (log 3). -/
def Obligations.CommandRowsReportTheFirstError : Prop :=
  ∀ (s : State) (p : List Word), s.st ≠ .busy →
    let failed (c : Word) (e : ErrCode) : State := { s with
      cmd := c, st := .error, err := e, opl := none, src := [], phase := .ended, shreg := 0#8, bitsLeft := 0, outd := [],
      outb := [], program := s.program.tail }
    (p.length > Config.maxItems →
      exec (.encser p) s = .next (failed 1#32 .tooLong) ∧ exec (.enc p) s = .next (failed 2#32 .tooLong) ∧
      exec (.ser p) s = .next (failed 3#32 .tooLong)) ∧
    (p.length ≤ Config.maxItems → (∃ w ∈ p, w.extractLsb' 8 24 ≠ 0#24) →
      exec (.encser p) s = .next (failed 1#32 .badInput) ∧ exec (.enc p) s = .next (failed 2#32 .badInput)) ∧
    (p.length ≤ Config.maxItems → p.length % 2 = 1 → exec (.ser p) s = .next (failed 3#32 .oddLength))

/-- R141, R224: while ST = BUSY an ISSUE, by any row, changes nothing and stays the host's next action; the step is the block's. -/
def Obligations.IssueHoldsWhileBusy : Prop :=
  ∀ (s : State) (c : Word) (p : List Word), s.st = .busy →
    exec (.issue c p) s = .next s ∧ exec (.encser p) s = .next s ∧ exec (.enc p) s = .next s ∧ exec (.ser p) s = .next s ∧
    exec (.illegal c p) s = .next s ∧
    (∀ rest, s.program = .issue c p :: rest → step s = blockStep s)

/-- R196: an ISSUE that has an error produces no output item and consumes no payload; what the block holds after it is given in full, and
OUTLEN is 0 and no output item can be read. -/
def Obligations.FailedIssueLeavesNoOutput : Prop :=
  ∀ (s : State) (c : Word) (p : List Word) (e : ErrCode), s.st ≠ .busy → issueError Config.maxItems c p = some e →
    ∃ t, exec (.issue c p) s = .next t ∧
      sameBlock t { s with
        cmd := c, st := .error, err := e, opl := none, src := [], phase := .ended, shreg := 0#8, bitsLeft := 0, outd := [],
        outb := [] } ∧
      t.outLen = 0#32 ∧ ∀ i, exec (.rdout i) t = .refused (.noSuchOutput i)

/-- R41: the states two ISSUEs of the same word and payload leave agree on everything the block holds, whatever went before, and so do
the states after any number of block steps. -/
def Obligations.EarlierJobsDoNotChangeALaterJob : Prop :=
  ∀ (s s' t t' : State) (c : Word) (p : List Word), s.st ≠ .busy → s'.st ≠ .busy →
    exec (.issue c p) s = .next t → exec (.issue c p) s' = .next t' →
    sameBlock t t' ∧
    ∀ k u, blockRun k t = .next u → ∃ u', blockRun k t' = .next u' ∧ sameBlock u u'

/-! ## The other host actions -/

/-- WAIT completes with no effect but the host's moving on when ST ≠ BUSY; while BUSY the host holds and the step is the block's
(42_job_control.md R153). That the taken action leaves the program is log 3's form, and that exec of a held WAIT answers the same state
is log 9's. -/
def Obligations.WaitCompletesOnlyWhenNotBusy : Prop :=
  (∀ s : State, s.st ≠ .busy → exec .wait s = .next { s with program := s.program.tail }) ∧
  (∀ s : State, s.st = .busy → exec .wait s = .next s ∧ ∀ rest, s.program = .wait :: rest → step s = blockStep s)

/-- R151: RDREG's answers are CMD, zext_32(ST), zext_32(CODE) and OUTLEN; it is enabled in every ST and has no effect on the block; a
number from 4 on is refused. -/
def Obligations.RdregReturnsTheRegister : Prop :=
  ∀ s : State,
    s.readReg 0 = some s.cmd ∧
    s.readReg 1 = some (match s.st with | .idle => 0#32 | .busy => 1#32 | .done => 2#32 | .error => 3#32) ∧
    s.readReg 2 = some
      (match s.err with | .none => 0#32 | .illegalCmd => 1#32 | .tooLong => 2#32 | .badInput => 3#32 | .oddLength => 4#32) ∧
    s.readReg 3 = some (BitVec.ofNat 32 (if s.opl = some .enc then s.outd.length else s.outb.length)) ∧
    (∀ n, actionEnabled s (.rdreg n) = true) ∧
    (∀ n, n < 4 → ∃ t, exec (.rdreg n) s = .next t ∧ sameBlock s t) ∧
    ∀ n, 4 ≤ n → exec (.rdreg n) s = .refused (.noSuchRegister n)

/-- R152: RDOUT's answer is the 32-bit duration i in ENC mode and byte i in the byte modes; it is enabled in every ST and has no effect on
the block; any other read is refused. -/
def Obligations.RdoutReturnsTheItem : Prop :=
  ∀ (s : State) (i : Nat),
    (∀ h : i < s.outd.length, s.opl = some .enc →
      s.outRead i = some (.duration i s.outd[i]) ∧ ∃ t, exec (.rdout i) s = .next t ∧ sameBlock s t) ∧
    (∀ h : i < s.outb.length, s.opl = some .encser ∨ s.opl = some .ser →
      s.outRead i = some (.byte i s.outb[i]) ∧ ∃ t, exec (.rdout i) s = .next t ∧ sameBlock s t) ∧
    (s.opl = none ∨ (s.opl = some .enc ∧ s.outd.length ≤ i) ∨
        ((s.opl = some .encser ∨ s.opl = some .ser) ∧ s.outb.length ≤ i) →
      exec (.rdout i) s = .refused (.noSuchOutput i)) ∧
    actionEnabled s (.rdout i) = true

/-- R220: RESET is enabled in every state and sets every variable of the block to its reset value in one transition. -/
def Obligations.ResetSetsEveryVariable : Prop :=
  ∀ s : State, actionEnabled s .reset = true ∧
    ∃ t, exec .reset s = .next t ∧ t.cmd = 0#32 ∧ t.st = .idle ∧ t.err = .none ∧ t.opl = none ∧ t.src = [] ∧ t.phase = .ended ∧
      t.shreg = 0#8 ∧ t.bitsLeft = 0 ∧ t.outd = [] ∧ t.outb = []

/-- The host's side of its actions, in the model's form (logs 3 to 5): an action that is taken leaves the program, a read's answer is
appended to the responses, and nothing else of the host's side or of the interleaving changes. RDREG and RDOUT complete so wherever
their register or item exists. -/
def Obligations.HostSideOfTheActions : Prop :=
  (∀ (s : State) (n : Nat) (v : Word), s.readReg n = some v → exec (.rdreg n) s = .next
    { s with program := s.program.tail, responses := s.responses ++ [.reg n v] }) ∧
  (∀ (s : State) (i : Nat) (r : Response), s.outRead i = some r → exec (.rdout i) s = .next
    { s with program := s.program.tail, responses := s.responses ++ [r] }) ∧
  (∀ s t : State, exec .reset s = .next t → sameHost t { s with program := s.program.tail }) ∧
  (∀ (s t : State) (c : Word) (p : List Word), s.st ≠ .busy → exec (.issue c p) s = .next t →
    sameHost t { s with program := s.program.tail })

/-- R40: the values of the block's state after reset and at power-on; RESET gives the same values. -/
def Obligations.ResetStateHasTheTabledValues : Prop :=
  State.reset.cmd = 0#32 ∧ State.reset.st.code = 0#2 ∧ errCode State.reset.err = 0#4 ∧ State.reset.outLen = 0#32 ∧
  State.reset.opl = none ∧ State.reset.src = [] ∧ State.reset.phase = .ended ∧ State.reset.shreg = 0#8 ∧
  State.reset.bitsLeft = 0 ∧ State.reset.outd = [] ∧ State.reset.outb = [] ∧
  ∀ s t : State, exec .reset s = .next t → sameBlock t State.reset

/-- Frame of WAIT, RDREG and RDOUT (20_memory.md R57, 42_job_control.md R151 to R153): every variable of the block, every output item and
the interleaving keep their values, and earlier responses stay. The program, the responses, the interleaving and the held WAIT are the
model's form (logs 1, 3, 5 and 9). -/
def Obligations.ReadsAndWaitChangeNothingInTheBlock : Prop :=
  ∀ (i : Instr) (s t : State), (i = .wait ∨ (∃ n, i = .rdreg n) ∨ ∃ n, i = .rdout n) → exec i s = .next t →
    sameBlock s t ∧ s.choices = t.choices ∧ s.turn = t.turn ∧ s.responses <+: t.responses ∧
    (t.program = s.program ∨ t.program = s.program.tail)

/-- R22, R25, R26, R36: the bits of STATUS and ERR that are not ST or CODE read as 0, and no CODE from 5 to 15 is held. -/
def Obligations.ReservedStatusBitsReadZero : Prop :=
  ∀ s : State, s.statusWord.extractLsb' 2 30 = 0#30 ∧ s.statusWord.extractLsb' 0 2 = s.st.code ∧
    s.errWord.extractLsb' 4 28 = 0#28 ∧ s.errWord.extractLsb' 0 4 = errCode s.err ∧ (errCode s.err).toNat ≤ 4

/-- R27: OUTLEN, a 32-bit register, equals the number of output items; it does not overflow (in states that meet the invariant, which
bounds the job's length by R9). Its reset value is 0. -/
def Obligations.OutlenEqualsTheOutputLength : Prop :=
  (∀ s : State, s.Inv →
    (s.opl = some .enc → s.outLen.toNat = s.outd.length) ∧ (s.opl ≠ some .enc → s.outLen.toNat = s.outb.length)) ∧
  State.reset.outLen = 0#32

/-! ## Symbols and block steps -/

/-- R148: `Emit(p, s)` appends to OUTD in ENC mode and the record's little-endian bytes to OUTB otherwise, and writes nothing else. -/
def Obligations.EmitAppendsByMode : Prop :=
  ∀ (s : State) (p q : Dur),
    s.emit p q =
      (if s.opl = some .enc then { s with outd := s.outd ++ [p, q] }
       else { s with outb := s.outb ++
        [p.extractLsb' 0 8, p.extractLsb' 8 8, p.extractLsb' 16 8, p.extractLsb' 24 8,
         q.extractLsb' 0 8, q.extractLsb' 8 8, q.extractLsb' 16 8, q.extractLsb' 24 8] })

/-- R101, R146: where the sequencer is at the leader, LEADER completes: (4350, 4350) is emitted and PHASE becomes DATA. -/
def Obligations.LeaderIsEmitted : Prop :=
  ∀ s : State, s.st = .busy → s.phase = .leader →
    (s.opl = some .enc → exec .leader s = .next { s with phase := .data, outd := s.outd ++ [4350#32, 4350#32] }) ∧
    (s.opl = some .encser → exec .leader s = .next { s with
      phase := .data, outb := s.outb ++ [0xFE#8, 0x10#8, 0#8, 0#8, 0xFE#8, 0x10#8, 0#8, 0#8] })

/-- R102, R103, R147: where a bit is selected, BIT0 or BIT1 completes by the bit's value: (460, 600) or (460, 1600) is emitted and BITSLEFT
counts down. -/
def Obligations.BitsAreEmitted : Prop :=
  ∀ s : State, s.st = .busy → s.phase = .data → s.bitsLeft ≠ 0 →
    let left : Fin 9 := ⟨s.bitsLeft.val - 1, by omega⟩
    (s.opl = some .enc → s.shreg.getLsbD (s.bitsLeft.val - 1) = false →
      exec .bit0 s = .next { s with bitsLeft := left, outd := s.outd ++ [460#32, 600#32] }) ∧
    (s.opl = some .enc → s.shreg.getLsbD (s.bitsLeft.val - 1) = true →
      exec .bit1 s = .next { s with bitsLeft := left, outd := s.outd ++ [460#32, 1600#32] }) ∧
    (s.opl = some .encser → s.shreg.getLsbD (s.bitsLeft.val - 1) = false →
      exec .bit0 s = .next { s with
        bitsLeft := left, outb := s.outb ++ [0xCC#8, 0x01#8, 0#8, 0#8, 0x58#8, 0x02#8, 0#8, 0#8] }) ∧
    (s.opl = some .encser → s.shreg.getLsbD (s.bitsLeft.val - 1) = true →
      exec .bit1 s = .next { s with
        bitsLeft := left, outb := s.outb ++ [0xCC#8, 0x01#8, 0#8, 0#8, 0x40#8, 0x06#8, 0#8, 0#8] })

/-- R121, R78, R149: in SER mode, where the next two payload words are p and q, REC completes: le32(p) ++ le32(q) is appended to OUTB and
both words leave SRC. In ENCSER mode, REC of the selected symbol's pair is that symbol's own step. -/
def Obligations.RecordIsWritten : Prop :=
  (∀ (s : State) (p q : Word) (rest : List Word), s.st = .busy → s.phase = .data → s.opl = some .ser → s.src = p :: q :: rest →
    exec (.record p q) s = .next { s with
      src := rest
      outb := s.outb ++
        [p.extractLsb' 0 8, p.extractLsb' 8 8, p.extractLsb' 16 8, p.extractLsb' 24 8,
         q.extractLsb' 0 8, q.extractLsb' 8 8, q.extractLsb' 16 8, q.extractLsb' 24 8] }) ∧
  (∀ s : State, s.opl = some .encser →
    (s.selected = some .leader → exec (.record 4350#32 4350#32) s = exec .leader s) ∧
    (s.selected = some .bit0 → exec (.record 460#32 600#32) s = exec .bit0 s) ∧
    (s.selected = some .bit1 → exec (.record 460#32 1600#32) s = exec .bit1 s))

/-- R122, R150: where the sequencer is at the trailer of a byte-mode job, TRAILER completes: `CA 01 00 00` is appended, PHASE becomes END
and ST becomes DONE. -/
def Obligations.TrailerEndsTheJob : Prop :=
  ∀ s : State, s.st = .busy → s.phase = .trailer → s.opl = some .encser ∨ s.opl = some .ser →
    exec .trailer s = .next { s with
      outb := s.outb ++ [0xCA#8, 0x01#8, 0#8, 0#8], phase := .ended, st := .done }

/-- Frame of LEADER, BIT0, BIT1, REC and TRAILER: CMD, ERR, OPL, SHREG and the host's side keep their values; every output item written
before stays at its index; OUTB is untouched in ENC mode and OUTD in the others; ST changes only by TRAILER, SRC only by REC in SER mode
(10_state.md R26, R37; 20_memory.md R60). -/
def Obligations.SymbolsChangeOnlyOutputAndSequencer : Prop :=
  ∀ (i : Instr) (s t : State),
    (i = .leader ∨ i = .bit0 ∨ i = .bit1 ∨ (∃ p q, i = .record p q) ∨ i = .trailer) → exec i s = .next t →
    t.cmd = s.cmd ∧ t.err = s.err ∧ t.opl = s.opl ∧ t.shreg = s.shreg ∧ sameHost s t ∧
    (∀ k, k < s.outd.length → t.outd[k]? = s.outd[k]?) ∧ (∀ k, k < s.outb.length → t.outb[k]? = s.outb[k]?) ∧
    (s.opl = some .enc → t.outb = s.outb) ∧ (s.opl ≠ some .enc → t.outd = s.outd) ∧
    (i ≠ .trailer → t.st = s.st) ∧ (s.opl ≠ some .ser → t.src = s.src)

/-- A symbol is emitted only where the sequencer selects it: elsewhere exec stops, and a step never comes to that stop
(the model's choice, log 8; 42_job_control.md R145). -/
def Obligations.UnselectedSymbolsStop : Prop :=
  (∀ s : State, s.selected ≠ some .leader → exec .leader s = .fault .notSelected) ∧
  (∀ s : State, s.selected ≠ some .bit0 → exec .bit0 s = .fault .notSelected) ∧
  (∀ s : State, s.selected ≠ some .bit1 → exec .bit1 s = .fault .notSelected) ∧
  (∀ s : State, s.selected ≠ some .trailer → exec .trailer s = .fault .notSelected) ∧
  (∀ (s : State) (p q : Dur), s.opl = some .enc ∨ s.selectedPair ≠ some (p, q) → exec (.record p q) s = .fault .notSelected) ∧
  (∀ s : State, step s ≠ .fault .notSelected)

/-- R147: the block step in the data phase of ENC and ENCSER, in every state of it. -/
def Obligations.DataStepOfByteModes : Prop :=
  ∀ s : State, s.st = .busy → s.phase = .data → s.opl = some .enc ∨ s.opl = some .encser →
    (s.bitsLeft = 0 → s.src = [] → s.opl = some .encser → blockStep s = .next { s with phase := .trailer }) ∧
    (s.bitsLeft = 0 → s.src = [] → s.opl = some .enc → blockStep s = .next { s with phase := .ended, st := .done }) ∧
    (∀ w rest, s.bitsLeft = 0 → s.src = w :: rest →
      blockStep s = .next { s with shreg := w.extractLsb' 0 8, src := rest, bitsLeft := 8 }) ∧
    (s.bitsLeft ≠ 0 →
      blockStep s = .next { (s.emit 460#32 (if s.shreg.getLsbD (s.bitsLeft.val - 1) then 1600#32 else 600#32)) with
        bitsLeft := ⟨s.bitsLeft.val - 1, by omega⟩ })

/-- R146, R149, R150: the block step at the leader, in the data phase of SER, and at the trailer. In a SER job SRC has even length (in
states that meet the invariant); one word left is a fault. -/
def Obligations.LeaderSerAndTrailerSteps : Prop :=
  ∀ s : State, s.st = .busy →
    (s.phase = .leader → s.opl = some .enc ∨ s.opl = some .encser →
      blockStep s = .next { (s.emit 4350#32 4350#32) with phase := .data }) ∧
    (s.phase = .data → s.opl = some .ser → s.src = [] → blockStep s = .next { s with phase := .trailer }) ∧
    (∀ p q rest, s.phase = .data → s.opl = some .ser → s.src = p :: q :: rest →
      blockStep s = .next { (s.emit p q) with src := rest }) ∧
    (∀ p, s.phase = .data → s.opl = some .ser → s.src = [p] → blockStep s = .fault .unreachableState) ∧
    (s.Inv → s.phase = .data → s.opl = some .ser → s.src.length % 2 = 0) ∧
    (s.phase = .trailer → s.opl = some .encser ∨ s.opl = some .ser →
      blockStep s = .next { s with outb := s.outb ++ [0xCA#8, 0x01#8, 0#8, 0#8], phase := .ended, st := .done })

/-- R207: a state that holds a combination no rule reaches, BUSY at END or a SER job with one word left in its data phase, is the fault
`unreachable state` of every step, whichever agent would move, and of the block step, and it does not meet the invariant. The other
positions to which no case of R145 applies fault alike (DEDUCED, log 7). In every other state a BUSY block has its step. -/
def Obligations.UnreachableStatesFault : Prop :=
  (∀ s : State, s.st = .busy →
    s.phase = .ended ∨ (s.phase = .data ∧ s.opl = some .ser ∧ s.src.length = 1) ∨ s.opl = none ∨
      (s.phase = .leader ∧ s.opl = some .ser) ∨ (s.phase = .trailer ∧ s.opl = some .enc) →
    s.unreachable = true) ∧
  (∀ s : State, s.unreachable = true →
    s.st = .busy ∧ step s = .fault .unreachableState ∧ blockStep s = .fault .unreachableState ∧ ¬ s.Inv) ∧
  (∀ s : State, s.st = .busy → s.unreachable = false → ∃ t, blockStep s = .next t)

/-- Only ISSUE (by any row) and RESET write CMD and ERR; ST is written to BUSY or ERROR only by ISSUE, to IDLE only by RESET and to DONE
only by the block (10_state.md R25, R26, R36, R37; 60_exceptions.md R195). -/
def Obligations.StatusRegistersAreWrittenAsTabled : Prop :=
  (∀ s t : State, step s = .next t → ¬ s.discarding →
    t.cmd = s.cmd ∧ t.err = s.err ∧ t.opl = s.opl ∧ (t.st = s.st ∨ (s.st = .busy ∧ t.st = .done))) ∧
  (∀ (s t : State) (c : Word) (p : List Word), s.st ≠ .busy → exec (.issue c p) s = .next t →
    t.cmd = c ∧ ((t.st = .busy ∧ t.err = .none) ∨ (t.st = .error ∧ t.err ≠ .none))) ∧
  (∀ s t : State, blockStep s = .next t → t.cmd = s.cmd ∧ t.err = s.err ∧ t.opl = s.opl ∧
    (t.st = s.st ∨ (s.st = .busy ∧ t.st = .done ∧ t.phase = .ended)))

/-- R28: OPL is NONE at reset; it is set to the decoded operation by an accepted ISSUE and to NONE by a failed one and by RESET, and no
other step changes it. -/
def Obligations.OplIsLatchedByIssue : Prop :=
  (∀ (s t : State) (c : Word) (p : List Word), s.st ≠ .busy → exec (.issue c p) s = .next t →
    (t.st = .busy → t.opl = decodeOp c ∧ t.opl ≠ none) ∧ (t.st = .error → t.opl = none)) ∧
  (∀ s t : State, exec .reset s = .next t → t.opl = none) ∧
  (∀ s t : State, step s = .next t → ¬ s.discarding → t.opl = s.opl) ∧
  State.reset.opl = none

/-- R21: a block step never adds to SRC and never moves PHASE back, along LEADER, DATA, TRAILER, END. -/
def Obligations.SequencerMovesOnlyForward : Prop :=
  let rank : Phase → Nat := fun ph => match ph with | .leader => 0 | .data => 1 | .trailer => 2 | .ended => 3
  ∀ s t : State, blockStep s = .next t → rank s.phase ≤ rank t.phase ∧ t.src <:+ s.src

/-! ## The functions -/

/-- R105: the length of Encode. -/
def Obligations.EncodeLength : Prop :=
  ∀ bs : List Byte, (encodePulses bs).length = 2 + 16 * bs.length ∧ (encodePulses bs).length % 2 = 0

/-- R106: the entries of Encode, by byte and bit. -/
def Obligations.EncodePositions : Prop :=
  ∀ bs : List Byte, (encodePulses bs)[0]? = some 4350#32 ∧ (encodePulses bs)[1]? = some 4350#32 ∧
    ∀ (j i : Nat) (hj : j < bs.length), i ≤ 7 →
      (encodePulses bs)[2 + 16 * j + 2 * (7 - i)]? = some 460#32 ∧
      (encodePulses bs)[2 + 16 * j + 2 * (7 - i) + 1]? = some (if bs[j].getLsbD i then 1600#32 else 600#32)

/-- R107: the pair view of Encode. -/
def Obligations.EncodePairView : Prop :=
  ∀ bs : List Byte,
    encodePairs bs = (4350#32, 4350#32) :: bs.flatMap (fun b =>
      [7, 6, 5, 4, 3, 2, 1, 0].map fun i => (460#32, if b.getLsbD i then 1600#32 else 600#32)) ∧
    (encodePairs bs).length = 1 + 8 * bs.length ∧
    ∀ (k : Nat) (hk : k < (encodePairs bs).length),
      (encodePulses bs)[2 * k]? = some (encodePairs bs)[k].1 ∧ (encodePulses bs)[2 * k + 1]? = some (encodePairs bs)[k].2

/-- R120, R125: Serialize of an odd length is ODD_LENGTH; of an even length m it is the little-endian pairs in order, then the trailer:
4·m + 4 bytes. -/
def Obligations.SerializeIsThePairsThenTheTrailer : Prop :=
  ∀ ds : List Dur,
    (ds.length % 2 = 1 → serialize ds = .error .oddLength) ∧
    (ds.length % 2 = 0 →
      serialize ds = .ok
        ((List.range (ds.length / 2)).flatMap (fun k => le32 (ds.getD (2 * k) 0) ++ le32 (ds.getD (2 * k + 1) 0)) ++
          [0xCA#8, 0x01#8, 0#8, 0#8])) ∧
    (∀ buf, serialize ds = .ok buf → buf.length = 8 * (ds.length / 2) + 4 ∧ buf.length = 4 * ds.length + 4)

/-- R124 (and the table of R54): record k holds entries 2k and 2k+1 at byte offset 8k, for every value of every entry, and the trailer
follows the last record. -/
def Obligations.SerializeLayout : Prop :=
  ∀ (ds : List Dur) (buf : List Byte), serialize ds = .ok buf →
    (∀ (k : Nat) (hk : 2 * k + 1 < ds.length),
      (buf.drop (8 * k)).take 8 = le32 ds[2 * k] ++ le32 ds[2 * k + 1]) ∧
    buf.drop (8 * (ds.length / 2)) = [0xCA#8, 0x01#8, 0#8, 0#8]

/-- R55: the host's rebuilding of the j-th 32-bit value of a buffer gives entry j of the serialized sequence, and 458 for the
trailer; le32 loses nothing. -/
def Obligations.RebuiltValuesAreTheEntries : Prop :=
  (∀ v : Word, le32Value (v.extractLsb' 0 8) (v.extractLsb' 8 8) (v.extractLsb' 16 8) (v.extractLsb' 24 8) = v) ∧
  (∀ (ds : List Dur) (buf : List Byte), serialize ds = .ok buf →
    (∀ (j : Nat) (hj : j < ds.length), rebuiltValue buf j = some ds[j]) ∧ rebuiltValue buf ds.length = some 458#32)

/-- R127: the composition used by ENCSER. -/
def Obligations.SerializeOfEncode : Prop :=
  ∀ bs : List Byte, ∃ buf, serialize (encodePulses bs) = .ok buf ∧ buf.length = 64 * bs.length + 12 ∧
    buf.take 8 = [0xFE#8, 0x10#8, 0#8, 0#8, 0xFE#8, 0x10#8, 0#8, 0#8] ∧
    buf.drop (buf.length - 4) = [0xCA#8, 0x01#8, 0#8, 0#8]

/-- R128: the record of a bit in the buffer of an encoded payload. -/
def Obligations.BitRecordPositions : Prop :=
  ∀ (bs : List Byte) (buf : List Byte), serialize (encodePulses bs) = .ok buf →
    ∀ (j i : Nat) (hj : j < bs.length), i ≤ 7 →
      (buf.drop (8 + 64 * j + 8 * (7 - i))).take 8 =
        if bs[j].getLsbD i then [0xCC#8, 0x01#8, 0#8, 0#8, 0x40#8, 0x06#8, 0#8, 0#8]
        else [0xCC#8, 0x01#8, 0#8, 0#8, 0x58#8, 0x02#8, 0#8, 0#8]

/-! ## The machine as a whole -/

/-- R155, R156: from an accepted ISSUE the block steps reach DONE after exactly the tabled number of steps, not before, and the output is
that of the source's functions. -/
def Obligations.AcceptedJobCompletes : Prop :=
  ∀ (s t : State) (c : Word) (p : List Word) (op : Op), s.st ≠ .busy → decodeOp c = some op →
    exec (.issue c p) s = .next t → t.st = .busy →
    (∃ u, blockRun (jobSteps op p.length) t = .next u ∧ u.st = .done ∧
      (op = .enc → u.outd = encodePulses (payloadBytes p) ∧ u.outb = []) ∧
      (op = .encser → serialize (encodePulses (payloadBytes p)) = .ok u.outb ∧ u.outd = []) ∧
      (op = .ser → serialize p = .ok u.outb ∧ u.outd = [])) ∧
    ∀ k, k < jobSteps op p.length → ∃ u, blockRun k t = .next u ∧ u.st = .busy

/-- R157: between an accepted ISSUE and DONE the output is a prefix of the final output, in whole pairs or records, and full after the
trailer. -/
def Obligations.RunningJobShowsAPrefix : Prop :=
  ∀ (s t u : State) (c : Word) (p : List Word) (op : Op) (k : Nat), s.st ≠ .busy → decodeOp c = some op →
    exec (.issue c p) s = .next t → t.st = .busy → k ≤ jobSteps op p.length → blockRun k t = .next u →
    u.outd <+: (jobOutputs op p).1 ∧ u.outb <+: (jobOutputs op p).2 ∧
    (op = .enc → u.outd.length % 2 = 0) ∧
    (op ≠ .enc → u.st = .busy → u.outb.length % 8 = 0) ∧
    (u.st = .done → u.outd = (jobOutputs op p).1 ∧ u.outb = (jobOutputs op p).2)

/-- The reset state meets the invariant. -/
def Obligations.ResetMeetsTheInvariant : Prop := State.reset.Inv

/-- Every step keeps the invariant, whichever agent moves (10_state.md R35; 20_memory.md R58; R127 with 00_scope.md R9). -/
def Obligations.StepKeepsTheInvariant : Prop :=
  ∀ s t : State, s.Inv → step s = .next t → t.Inv

/-- R35, in states that meet the invariant. -/
def Obligations.OutputListsFollowTheStatus : Prop :=
  ∀ s : State, s.Inv →
    (s.outd = [] ∨ s.outb = []) ∧ (s.outd ≠ [] → s.opl = some .enc) ∧
    (s.outb ≠ [] → s.opl = some .encser ∨ s.opl = some .ser) ∧
    (s.st = .idle ∨ s.st = .error → s.outd = [] ∧ s.outb = [] ∧ s.src = [] ∧ s.phase = .ended) ∧
    (s.st = .done → s.src = [] ∧ s.phase = .ended ∧ s.bitsLeft = 0)

/-- No step from a state that meets the invariant is a fault, so none from reset is (60_exceptions.md R195, R207). -/
def Obligations.InvariantStatesDoNotFault : Prop :=
  ∀ (s : State) (f : Fault), s.Inv → step s ≠ .fault f

/-- Whatever the interleaving, the output a job will end with, what it has emitted with what it has still to emit, is not changed by
any step that is not an ISSUE or a RESET (42_job_control.md R155, R157; 20_memory.md R63). -/
def Obligations.FinalOutputIsFixedWhileTheJobRuns : Prop :=
  ∀ s t : State, s.Inv → step s = .next t → ¬ s.discarding → t.finalOutd = s.finalOutd ∧ t.finalOutb = s.finalOutb

/-- The output a job will end with is, right after its ISSUE, that of the source's functions (R155), and once it is DONE it is what OUTD and
OUTB hold. -/
def Obligations.FinalOutputIsTheFunctionsOutput : Prop :=
  (∀ (s t : State) (c : Word) (p : List Word) (op : Op), s.st ≠ .busy → decodeOp c = some op →
    exec (.issue c p) s = .next t → t.st = .busy → (t.finalOutd, t.finalOutb) = jobOutputs op p) ∧
  (∀ s : State, s.st = .done → s.finalOutd = s.outd ∧ s.finalOutb = s.outb)

/-- R65 (and 20_memory.md R60): output items are never changed or taken away until the next ISSUE or RESET, after DONE none is added, and
an ISSUE, accepted or failing, and RESET empty both lists. -/
def Obligations.OutputPersists : Prop :=
  (∀ s t : State, step s = .next t → ¬ s.discarding →
    s.outd <+: t.outd ∧ s.outb <+: t.outb ∧ (s.st ≠ .busy → t.outd = s.outd ∧ t.outb = s.outb)) ∧
  (∀ (s t : State) (c : Word) (p : List Word), s.st ≠ .busy → exec (.issue c p) s = .next t → t.outd = [] ∧ t.outb = []) ∧
  (∀ s t : State, exec .reset s = .next t → t.outd = [] ∧ t.outb = [])

/-- Whatever the interleaving, a running job ends, within as many steps as the block has left and the host has actions, unless a refused
read ends the run before (R156, 70_reset_and_hazards.md R231; the host's program is finite, log 13). -/
def Obligations.EveryJobEndsInEveryInterleaving : Prop :=
  ∀ s : State, s.Inv → s.st = .busy →
    ∃ n, n ≤ s.stepsLeft + s.program.length ∧
      ((∃ t, run n s = .next t ∧ t.st ≠ .busy) ∨ ∃ r, run n s = .refused r)

/-- A state that is not BUSY takes no block step: without a host action it keeps all its state (60_exceptions.md R206, R198;
42_job_control.md R145). -/
def Obligations.IdleBlockKeepsItsState : Prop :=
  ∀ s : State, s.st ≠ .busy → (s.program = [] → step s = .next s) ∧
    (∀ t, step s = .next t → ¬ s.discarding → sameBlock s t) ∧ (∀ i, blockStep s ≠ .next i)

/-- R197: ERROR persists with its code until the next ISSUE or RESET; an accepted ISSUE clears the code and a failing one replaces it. -/
def Obligations.ErrorPersistsUntilIssueOrReset : Prop :=
  ∀ s : State, s.st = .error →
    (∀ t, step s = .next t → ¬ s.discarding → t.st = .error ∧ t.err = s.err) ∧
    (∀ c p, actionEnabled s (.issue c p) = true ∧
      ∃ t, exec (.issue c p) s = .next t ∧
        ((issueError Config.maxItems c p = none ∧ t.st = .busy ∧ t.err = .none) ∨
         ∃ e, issueError Config.maxItems c p = some e ∧ t.st = .error ∧ t.err = e))

/-! ## Host programs and host context -/

/-- R83, R84: what each line of a host program stands for. A command is its name's word or a literal word (which is how an illegal word
is written); a literal or a payload word beyond 2^32 − 1 spells no program, neither as a line nor in a program text, and every line of
a text that spells a program stands for actions. `run` is ISSUE then WAIT; `readall` reads OUTLEN and then every output item in order;
`issue.hex` issues the decoded bytes or, where the text does not decode, nothing. -/
def Obligations.PseudoInstructionsExpand : Prop :=
  ∀ (letters : HexLetters) (s : State),
    (∀ op, (AsmCmd.named op).word = some (cmdWord op)) ∧
    (∀ n, (n < 2 ^ 32 → (AsmCmd.literal n).word = some (BitVec.ofNat 32 n)) ∧
      (2 ^ 32 ≤ n → (AsmCmd.literal n).word = none)) ∧
    (∀ cmd ws text, cmd.word = none → expandLine letters s (.issue cmd ws) = none ∧ expandLine letters s (.run cmd ws) = none ∧
      expandLine letters s (.issueHex cmd text) = none) ∧
    (∀ cmd ws, (∃ n ∈ ws, 2 ^ 32 ≤ n) →
      expandLine letters s (.issue cmd ws) = none ∧ expandLine letters s (.run cmd ws) = none) ∧
    (∀ cmd c ws, cmd.word = some c → (∀ n ∈ ws, n < 2 ^ 32) →
      expandLine letters s (.issue cmd ws) = some ⟨[.issue c (ws.map (BitVec.ofNat 32))], none⟩ ∧
      expandLine letters s (.run cmd ws) = some ⟨[.issue c (ws.map (BitVec.ofNat 32)), .wait], none⟩) ∧
    (∀ cmd c text bs, cmd.word = some c → hexDecode letters text = .ok bs →
      expandLine letters s (.issueHex cmd text) = some ⟨[.issue c (bs.map (·.setWidth 32))], none⟩) ∧
    (∀ cmd c text f, cmd.word = some c → hexDecode letters text = .error f →
      expandLine letters s (.issueHex cmd text) = some ⟨[], some f⟩) ∧
    expandLine letters s .readall = some ⟨.rdreg 3 :: (List.range s.outLen.toNat).map .rdout, none⟩ ∧
    expandLine letters s .reset = some ⟨[.reset], none⟩ ∧
    expandLine letters s .wait = some ⟨[.wait], none⟩ ∧
    (∀ n, expandLine letters s (.rdreg n) = some ⟨[.rdreg n], none⟩ ∧ expandLine letters s (.rdout n) = some ⟨[.rdout n], none⟩) ∧
    (∀ texts ls, programLines texts = some ls → ∀ l ∈ ls, (expandLine letters s l).isSome) ∧
    (∀ texts text ts l, text ∈ texts → tokens text none [] = some ts → lineOf ts = some l → expandLine letters s l = none →
      parseLine text = none ∧ programLines texts = none)

/-- R171, R172: HexDecoder fails exactly on an odd length or a character that is no hex digit, and otherwise gives half as many bytes as
characters. -/
def Obligations.HexDecoderFailsExactlyAsStated : Prop :=
  ∀ (letters : HexLetters) (text : List Char),
    ((∃ f, hexDecode letters text = .error f) ↔ text.length % 2 = 1 ∨ ∃ c ∈ text, hexDigit letters c = none) ∧
    ∀ bs, hexDecode letters text = .ok bs → bs.length = text.length / 2

/-- R179: a failure to decode and an error of the block end a transmission without any device interaction; otherwise the buffer of the
encode path is what the device sequence is given, and the device is opened first, for reading and writing (R174 step 1). -/
def Obligations.EncodingPrecedesTheDevice : Prop :=
  ∀ (maxItems : Nat) (letters : HexLetters) (r : DeviceResults) (cfg : DeviceConfig) (text : List Char),
    (∀ f, hexDecode letters text = .error f →
      (transmit maxItems letters r cfg text).ops = [] ∧
      (transmit maxItems letters r cfg text).outcome = .failed (.decode f.offending)) ∧
    (∀ bs e, hexDecode letters text = .ok bs → encodePath maxItems bs = .error e →
      (transmit maxItems letters r cfg text).ops = [] ∧
      (transmit maxItems letters r cfg text).outcome = .failed (.internalInvariant e)) ∧
    (∀ bs buf, hexDecode letters text = .ok bs → encodePath maxItems bs = .ok buf →
      transmit maxItems letters r cfg text = deviceSequence r cfg buf ∧
      (transmit maxItems letters r cfg text).ops.head? = some (.open cfg.devicePath .readWrite))

/-- R174 to R177, where every device call answers (StalledCallsStallTheCaller says what happens where one does not): the device
operations of each course of a transmission, with its outcome. The device is written exactly where the open and both control calls
succeed, once and with the whole buffer; it is released, once and last, on every path after a successful open. A control call
passes the address of its parameter, at which the driver reads the configured value; that a cell's name stands for its address is the
model's choice (log 17). -/
def Obligations.DeviceIsReleasedAndWrittenOnce : Prop :=
  ∀ (r : DeviceResults) (cfg : DeviceConfig) (buf : List Byte),
    let run := deviceSequence r cfg buf
    let open' := DeviceOp.open cfg.devicePath .readWrite
    let carrier := DeviceOp.control 0x40046913#32 .carrierFrequencyHz
    let duty := DeviceOp.control 0x40046915#32 .dutyCyclePercent
    (∀ cause, r.opening = .failed cause → run.ops = [open'] ∧ run.outcome = .failed (.deviceOpen cfg.devicePath cause)) ∧
    (∀ cause, r.opening = .succeeded → r.carrier = .failed cause →
      run.ops = [open', carrier, .release] ∧ run.outcome = .failed (.deviceControl .carrier cause)) ∧
    (∀ cause, r.opening = .succeeded → r.carrier = .succeeded → r.dutyCycle = .failed cause →
      run.ops = [open', carrier, duty, .release] ∧ run.outcome = .failed (.deviceControl .dutyCycle cause)) ∧
    (∀ cause, r.opening = .succeeded → r.carrier = .succeeded → r.dutyCycle = .succeeded → r.writing = .failed cause →
      run.ops = [open', carrier, duty, .write buf, .release] ∧ run.outcome = .failed (.deviceWrite cause)) ∧
    (r.opening = .succeeded → r.carrier = .succeeded → r.dutyCycle = .succeeded → r.writing = .succeeded →
      run.ops = [open', carrier, duty, .write buf, .release] ∧ run.outcome = .succeeded ∧
      run.states = [.closed, .opened, .carrierSet, .dutyCycleSet, .written, .closed]) ∧
    (∀ b, .write b ∈ run.ops → b = buf ∧ r.opening = .succeeded ∧ r.carrier = .succeeded ∧ r.dutyCycle = .succeeded) ∧
    (run.outcome ≠ .stalled → run.states.getLast? = some .closed ∧
      (r.opening = .succeeded → run.ops.getLast? = some .release ∧ run.ops.count .release = 1)) ∧
    controlsSeen cfg run.ops <+:
      [(0x40046913#32, cfg.carrierFrequencyHz), (0x40046915#32, cfg.dutyCyclePercent)] ∧
    (.write buf ∈ run.ops → controlsSeen cfg run.ops =
      [(0x40046913#32, cfg.carrierFrequencyHz), (0x40046915#32, cfg.dutyCyclePercent)])

/-- R178, R179, R155: the buffer the host takes from the machine after an ENCSER job is the encode path's buffer, and where the open
and both control calls succeed it is the one a transmission of the same bytes writes. -/
def Obligations.CompleteBufferIsTheEncodePath : Prop :=
  ∀ (s : State) (bs : List Byte), s.st ≠ .busy → bs.length ≤ Config.maxItems →
    ∃ t u, exec (.encser (payloadOf bs)) s = .next t ∧ blockRun (jobSteps .encser bs.length) t = .next u ∧
      ∃ buf, u.completeBuffer = some buf ∧ encodePath Config.maxItems bs = .ok buf ∧
        serialize (encodePulses bs) = .ok buf ∧
        ∀ (letters : HexLetters) (r : DeviceResults) (cfg : DeviceConfig) (text : List Char), hexDecode letters text = .ok bs →
          transmit Config.maxItems letters r cfg text = deviceSequence r cfg buf ∧
          (r.opening = .succeeded → r.carrier = .succeeded → r.dutyCycle = .succeeded →
            .write buf ∈ (transmit Config.maxItems letters r cfg text).ops)

/-- R181: device calls block, so the call that does not answer is the last operation begun, the caller gets no result, and nothing ends
the call, neither a timeout nor a cancellation: the handle stays as it was and is not released. A transmission is stalled only so. -/
def Obligations.StalledCallsStallTheCaller : Prop :=
  ∀ (r : DeviceResults) (cfg : DeviceConfig) (buf : List Byte),
    let run := deviceSequence r cfg buf
    let open' := DeviceOp.open cfg.devicePath .readWrite
    let carrier := DeviceOp.control 0x40046913#32 .carrierFrequencyHz
    let duty := DeviceOp.control 0x40046915#32 .dutyCyclePercent
    (r.opening = .stalled → run = ⟨[open'], [.closed], .stalled⟩) ∧
    (r.opening = .succeeded → r.carrier = .stalled → run = ⟨[open', carrier], [.closed, .opened], .stalled⟩) ∧
    (r.opening = .succeeded → r.carrier = .succeeded → r.dutyCycle = .stalled →
      run = ⟨[open', carrier, duty], [.closed, .opened, .carrierSet], .stalled⟩) ∧
    (r.opening = .succeeded → r.carrier = .succeeded → r.dutyCycle = .succeeded → r.writing = .stalled →
      run = ⟨[open', carrier, duty, .write buf], [.closed, .opened, .carrierSet, .dutyCycleSet], .stalled⟩) ∧
    (run.outcome = .stalled → DeviceOp.release ∉ run.ops ∧
      (r.opening = .stalled ∨ r.carrier = .stalled ∨ r.dutyCycle = .stalled ∨ r.writing = .stalled))
end

