-- ==== Sys2Proof/Laws/State.lean ====
section
/-!
SUPPORT. One lemma per field per update of State, so that no proof unfolds an update.
-/

namespace Sys2Proof.Machine

variable (s : State)

/-! `State.retire` -/

@[simp] theorem retire_cmd : s.retire.cmd = s.cmd := rfl
@[simp] theorem retire_st : s.retire.st = s.st := rfl
@[simp] theorem retire_err : s.retire.err = s.err := rfl
@[simp] theorem retire_opl : s.retire.opl = s.opl := rfl
@[simp] theorem retire_src : s.retire.src = s.src := rfl
@[simp] theorem retire_phase : s.retire.phase = s.phase := rfl
@[simp] theorem retire_shreg : s.retire.shreg = s.shreg := rfl
@[simp] theorem retire_bitsLeft : s.retire.bitsLeft = s.bitsLeft := rfl
@[simp] theorem retire_outd : s.retire.outd = s.outd := rfl
@[simp] theorem retire_outb : s.retire.outb = s.outb := rfl
@[simp] theorem retire_program : s.retire.program = s.program.tail := rfl
@[simp] theorem retire_responses : s.retire.responses = s.responses := rfl
@[simp] theorem retire_choices : s.retire.choices = s.choices := rfl
@[simp] theorem retire_turn : s.retire.turn = s.turn := rfl

/-! `State.respond` -/

@[simp] theorem respond_cmd (r : Response) : (s.respond r).cmd = s.cmd := rfl
@[simp] theorem respond_st (r : Response) : (s.respond r).st = s.st := rfl
@[simp] theorem respond_err (r : Response) : (s.respond r).err = s.err := rfl
@[simp] theorem respond_opl (r : Response) : (s.respond r).opl = s.opl := rfl
@[simp] theorem respond_src (r : Response) : (s.respond r).src = s.src := rfl
@[simp] theorem respond_phase (r : Response) : (s.respond r).phase = s.phase := rfl
@[simp] theorem respond_shreg (r : Response) : (s.respond r).shreg = s.shreg := rfl
@[simp] theorem respond_bitsLeft (r : Response) : (s.respond r).bitsLeft = s.bitsLeft := rfl
@[simp] theorem respond_outd (r : Response) : (s.respond r).outd = s.outd := rfl
@[simp] theorem respond_outb (r : Response) : (s.respond r).outb = s.outb := rfl
@[simp] theorem respond_program (r : Response) : (s.respond r).program = s.program := rfl
@[simp] theorem respond_responses (r : Response) : (s.respond r).responses = s.responses ++ [r] := rfl
@[simp] theorem respond_choices (r : Response) : (s.respond r).choices = s.choices := rfl
@[simp] theorem respond_turn (r : Response) : (s.respond r).turn = s.turn := rfl

/-! `State.latch` -/

@[simp] theorem latch_cmd (c : Word) : (s.latch c).cmd = c := rfl
@[simp] theorem latch_st (c : Word) : (s.latch c).st = s.st := rfl
@[simp] theorem latch_err (c : Word) : (s.latch c).err = s.err := rfl
@[simp] theorem latch_opl (c : Word) : (s.latch c).opl = none := rfl
@[simp] theorem latch_src (c : Word) : (s.latch c).src = [] := rfl
@[simp] theorem latch_phase (c : Word) : (s.latch c).phase = .ended := rfl
@[simp] theorem latch_shreg (c : Word) : (s.latch c).shreg = 0x00#8 := rfl
@[simp] theorem latch_bitsLeft (c : Word) : (s.latch c).bitsLeft = 0 := rfl
@[simp] theorem latch_outd (c : Word) : (s.latch c).outd = [] := rfl
@[simp] theorem latch_outb (c : Word) : (s.latch c).outb = [] := rfl
@[simp] theorem latch_program (c : Word) : (s.latch c).program = s.program := rfl
@[simp] theorem latch_responses (c : Word) : (s.latch c).responses = s.responses := rfl
@[simp] theorem latch_choices (c : Word) : (s.latch c).choices = s.choices := rfl
@[simp] theorem latch_turn (c : Word) : (s.latch c).turn = s.turn := rfl

/-! `State.failIssue` -/

@[simp] theorem failIssue_cmd (e : ErrCode) : (s.failIssue e).cmd = s.cmd := rfl
@[simp] theorem failIssue_st (e : ErrCode) : (s.failIssue e).st = .error := rfl
@[simp] theorem failIssue_err (e : ErrCode) : (s.failIssue e).err = e := rfl
@[simp] theorem failIssue_opl (e : ErrCode) : (s.failIssue e).opl = s.opl := rfl
@[simp] theorem failIssue_src (e : ErrCode) : (s.failIssue e).src = s.src := rfl
@[simp] theorem failIssue_phase (e : ErrCode) : (s.failIssue e).phase = s.phase := rfl
@[simp] theorem failIssue_shreg (e : ErrCode) : (s.failIssue e).shreg = s.shreg := rfl
@[simp] theorem failIssue_bitsLeft (e : ErrCode) : (s.failIssue e).bitsLeft = s.bitsLeft := rfl
@[simp] theorem failIssue_outd (e : ErrCode) : (s.failIssue e).outd = s.outd := rfl
@[simp] theorem failIssue_outb (e : ErrCode) : (s.failIssue e).outb = s.outb := rfl
@[simp] theorem failIssue_program (e : ErrCode) : (s.failIssue e).program = s.program := rfl
@[simp] theorem failIssue_responses (e : ErrCode) : (s.failIssue e).responses = s.responses := rfl
@[simp] theorem failIssue_choices (e : ErrCode) : (s.failIssue e).choices = s.choices := rfl
@[simp] theorem failIssue_turn (e : ErrCode) : (s.failIssue e).turn = s.turn := rfl

/-! `State.accept` -/

@[simp] theorem accept_cmd (op : Op) (p : List Word) : (s.accept op p).cmd = s.cmd := rfl
@[simp] theorem accept_st (op : Op) (p : List Word) : (s.accept op p).st = .busy := rfl
@[simp] theorem accept_err (op : Op) (p : List Word) : (s.accept op p).err = .none := rfl
@[simp] theorem accept_opl (op : Op) (p : List Word) : (s.accept op p).opl = some op := rfl
@[simp] theorem accept_src (op : Op) (p : List Word) : (s.accept op p).src = p := rfl
@[simp] theorem accept_phase (op : Op) (p : List Word) : (s.accept op p).phase = startPhase op := rfl
@[simp] theorem accept_shreg (op : Op) (p : List Word) : (s.accept op p).shreg = s.shreg := rfl
@[simp] theorem accept_bitsLeft (op : Op) (p : List Word) : (s.accept op p).bitsLeft = s.bitsLeft := rfl
@[simp] theorem accept_outd (op : Op) (p : List Word) : (s.accept op p).outd = s.outd := rfl
@[simp] theorem accept_outb (op : Op) (p : List Word) : (s.accept op p).outb = s.outb := rfl
@[simp] theorem accept_program (op : Op) (p : List Word) : (s.accept op p).program = s.program := rfl
@[simp] theorem accept_responses (op : Op) (p : List Word) : (s.accept op p).responses = s.responses := rfl
@[simp] theorem accept_choices (op : Op) (p : List Word) : (s.accept op p).choices = s.choices := rfl
@[simp] theorem accept_turn (op : Op) (p : List Word) : (s.accept op p).turn = s.turn := rfl

/-! `State.load` -/

@[simp] theorem load_cmd (w : Word) (rest : List Word) : (s.load w rest).cmd = s.cmd := rfl
@[simp] theorem load_st (w : Word) (rest : List Word) : (s.load w rest).st = s.st := rfl
@[simp] theorem load_err (w : Word) (rest : List Word) : (s.load w rest).err = s.err := rfl
@[simp] theorem load_opl (w : Word) (rest : List Word) : (s.load w rest).opl = s.opl := rfl
@[simp] theorem load_src (w : Word) (rest : List Word) : (s.load w rest).src = rest := rfl
@[simp] theorem load_phase (w : Word) (rest : List Word) : (s.load w rest).phase = s.phase := rfl
@[simp] theorem load_shreg (w : Word) (rest : List Word) : (s.load w rest).shreg = byteOf w := rfl
@[simp] theorem load_bitsLeft (w : Word) (rest : List Word) : (s.load w rest).bitsLeft = 8 := rfl
@[simp] theorem load_outd (w : Word) (rest : List Word) : (s.load w rest).outd = s.outd := rfl
@[simp] theorem load_outb (w : Word) (rest : List Word) : (s.load w rest).outb = s.outb := rfl
@[simp] theorem load_program (w : Word) (rest : List Word) : (s.load w rest).program = s.program := rfl
@[simp] theorem load_responses (w : Word) (rest : List Word) : (s.load w rest).responses = s.responses := rfl
@[simp] theorem load_choices (w : Word) (rest : List Word) : (s.load w rest).choices = s.choices := rfl
@[simp] theorem load_turn (w : Word) (rest : List Word) : (s.load w rest).turn = s.turn := rfl

/-! `State.afterChoice` -/

@[simp] theorem afterChoice_cmd : s.afterChoice.cmd = s.cmd := rfl
@[simp] theorem afterChoice_st : s.afterChoice.st = s.st := rfl
@[simp] theorem afterChoice_err : s.afterChoice.err = s.err := rfl
@[simp] theorem afterChoice_opl : s.afterChoice.opl = s.opl := rfl
@[simp] theorem afterChoice_src : s.afterChoice.src = s.src := rfl
@[simp] theorem afterChoice_phase : s.afterChoice.phase = s.phase := rfl
@[simp] theorem afterChoice_shreg : s.afterChoice.shreg = s.shreg := rfl
@[simp] theorem afterChoice_bitsLeft : s.afterChoice.bitsLeft = s.bitsLeft := rfl
@[simp] theorem afterChoice_outd : s.afterChoice.outd = s.outd := rfl
@[simp] theorem afterChoice_outb : s.afterChoice.outb = s.outb := rfl
@[simp] theorem afterChoice_program : s.afterChoice.program = s.program := rfl
@[simp] theorem afterChoice_responses : s.afterChoice.responses = s.responses := rfl
@[simp] theorem afterChoice_choices : s.afterChoice.choices = s.choices.tail := rfl
@[simp] theorem afterChoice_turn : s.afterChoice.turn = s.turn + 1 := rfl

/-! `State.resetBlock` -/

@[simp] theorem resetBlock_cmd : s.resetBlock.cmd = 0#32 := rfl
@[simp] theorem resetBlock_st : s.resetBlock.st = .idle := rfl
@[simp] theorem resetBlock_err : s.resetBlock.err = .none := rfl
@[simp] theorem resetBlock_opl : s.resetBlock.opl = none := rfl
@[simp] theorem resetBlock_src : s.resetBlock.src = [] := rfl
@[simp] theorem resetBlock_phase : s.resetBlock.phase = .ended := rfl
@[simp] theorem resetBlock_shreg : s.resetBlock.shreg = 0#8 := rfl
@[simp] theorem resetBlock_bitsLeft : s.resetBlock.bitsLeft = 0 := rfl
@[simp] theorem resetBlock_outd : s.resetBlock.outd = [] := rfl
@[simp] theorem resetBlock_outb : s.resetBlock.outb = [] := rfl
@[simp] theorem resetBlock_program : s.resetBlock.program = s.program := rfl
@[simp] theorem resetBlock_responses : s.resetBlock.responses = s.responses := rfl
@[simp] theorem resetBlock_choices : s.resetBlock.choices = s.choices := rfl
@[simp] theorem resetBlock_turn : s.resetBlock.turn = s.turn := rfl

/-! `State.emit` -/

@[simp] theorem emit_cmd (p q : Dur) : (s.emit p q).cmd = s.cmd := by unfold State.emit; split <;> rfl
@[simp] theorem emit_st (p q : Dur) : (s.emit p q).st = s.st := by unfold State.emit; split <;> rfl
@[simp] theorem emit_err (p q : Dur) : (s.emit p q).err = s.err := by unfold State.emit; split <;> rfl
@[simp] theorem emit_opl (p q : Dur) : (s.emit p q).opl = s.opl := by unfold State.emit; split <;> rfl
@[simp] theorem emit_src (p q : Dur) : (s.emit p q).src = s.src := by unfold State.emit; split <;> rfl
@[simp] theorem emit_phase (p q : Dur) : (s.emit p q).phase = s.phase := by unfold State.emit; split <;> rfl
@[simp] theorem emit_shreg (p q : Dur) : (s.emit p q).shreg = s.shreg := by unfold State.emit; split <;> rfl
@[simp] theorem emit_bitsLeft (p q : Dur) : (s.emit p q).bitsLeft = s.bitsLeft := by unfold State.emit; split <;> rfl
@[simp] theorem emit_program (p q : Dur) : (s.emit p q).program = s.program := by unfold State.emit; split <;> rfl
@[simp] theorem emit_responses (p q : Dur) : (s.emit p q).responses = s.responses := by unfold State.emit; split <;> rfl
@[simp] theorem emit_choices (p q : Dur) : (s.emit p q).choices = s.choices := by unfold State.emit; split <;> rfl
@[simp] theorem emit_turn (p q : Dur) : (s.emit p q).turn = s.turn := by unfold State.emit; split <;> rfl

/-! `State.advance` -/

@[simp] theorem advance_cmd : s.advance.cmd = s.cmd := by unfold State.advance; split <;> rfl
@[simp] theorem advance_st : s.advance.st = s.st := by unfold State.advance; split <;> rfl
@[simp] theorem advance_err : s.advance.err = s.err := by unfold State.advance; split <;> rfl
@[simp] theorem advance_opl : s.advance.opl = s.opl := by unfold State.advance; split <;> rfl
@[simp] theorem advance_shreg : s.advance.shreg = s.shreg := by unfold State.advance; split <;> rfl
@[simp] theorem advance_outd : s.advance.outd = s.outd := by unfold State.advance; split <;> rfl
@[simp] theorem advance_outb : s.advance.outb = s.outb := by unfold State.advance; split <;> rfl
@[simp] theorem advance_program : s.advance.program = s.program := by unfold State.advance; split <;> rfl
@[simp] theorem advance_responses : s.advance.responses = s.responses := by unfold State.advance; split <;> rfl
@[simp] theorem advance_choices : s.advance.choices = s.choices := by unfold State.advance; split <;> rfl
@[simp] theorem advance_turn : s.advance.turn = s.turn := by unfold State.advance; split <;> rfl

/-! `State.exhaust` -/

@[simp] theorem exhaust_cmd : s.exhaust.cmd = s.cmd := by unfold State.exhaust; split <;> rfl
@[simp] theorem exhaust_err : s.exhaust.err = s.err := by unfold State.exhaust; split <;> rfl
@[simp] theorem exhaust_opl : s.exhaust.opl = s.opl := by unfold State.exhaust; split <;> rfl
@[simp] theorem exhaust_src : s.exhaust.src = s.src := by unfold State.exhaust; split <;> rfl
@[simp] theorem exhaust_shreg : s.exhaust.shreg = s.shreg := by unfold State.exhaust; split <;> rfl
@[simp] theorem exhaust_bitsLeft : s.exhaust.bitsLeft = s.bitsLeft := by unfold State.exhaust; split <;> rfl
@[simp] theorem exhaust_outd : s.exhaust.outd = s.outd := by unfold State.exhaust; split <;> rfl
@[simp] theorem exhaust_outb : s.exhaust.outb = s.outb := by unfold State.exhaust; split <;> rfl
@[simp] theorem exhaust_program : s.exhaust.program = s.program := by unfold State.exhaust; split <;> rfl
@[simp] theorem exhaust_responses : s.exhaust.responses = s.responses := by unfold State.exhaust; split <;> rfl
@[simp] theorem exhaust_choices : s.exhaust.choices = s.choices := by unfold State.exhaust; split <;> rfl
@[simp] theorem exhaust_turn : s.exhaust.turn = s.turn := by unfold State.exhaust; split <;> rfl

/-! `State.settled` -/

@[simp] theorem settled_cmd : s.settled.cmd = s.cmd := by unfold State.settled; split <;> rfl
@[simp] theorem settled_st : s.settled.st = s.st := by unfold State.settled; split <;> rfl
@[simp] theorem settled_err : s.settled.err = s.err := by unfold State.settled; split <;> rfl
@[simp] theorem settled_opl : s.settled.opl = s.opl := by unfold State.settled; split <;> rfl
@[simp] theorem settled_src : s.settled.src = s.src := by unfold State.settled; split <;> rfl
@[simp] theorem settled_phase : s.settled.phase = s.phase := by unfold State.settled; split <;> rfl
@[simp] theorem settled_shreg : s.settled.shreg = s.shreg := by unfold State.settled; split <;> rfl
@[simp] theorem settled_bitsLeft : s.settled.bitsLeft = s.bitsLeft := by unfold State.settled; split <;> rfl
@[simp] theorem settled_outd : s.settled.outd = s.outd := by unfold State.settled; split <;> rfl
@[simp] theorem settled_outb : s.settled.outb = s.outb := by unfold State.settled; split <;> rfl
@[simp] theorem settled_program : s.settled.program = s.program := by unfold State.settled; split <;> rfl
@[simp] theorem settled_responses : s.settled.responses = s.responses := by unfold State.settled; split <;> rfl

/-! The sequencer's selection reads the block's fields only. -/

@[simp] theorem settled_selected : s.settled.selected = s.selected := by
  simp only [State.selected, State.selectedBit, settled_st, settled_phase, settled_opl, settled_bitsLeft, settled_shreg, settled_src]

end Sys2Proof.Machine
end

