-- ==== Sys2Proof/Laws/Ops.lean ====
section
/-!
SUPPORT. For each shared operation, what it can do, said once: the command decoder, ISSUE and its checks, Emit, the sequencer's
selection, the block step and the step.
-/

namespace Sys2Proof.Machine

/-! ### The command word -/

theorem decodeOp_eq_some (c : Word) (op : Op) : decodeOp c = some op ↔ c = cmdWord op := by
  have key : ∀ v : BitVec 2, (c.extractLsb' 2 30 = 0#30 ∧ c.extractLsb' 0 2 = v) ↔ c = v.setWidth 32 := by
    intro v
    simp only [← BitVec.toNat_inj, BitVec.extractLsb'_toNat, BitVec.toNat_setWidth, BitVec.toNat_ofNat, Nat.shiftRight_eq_div_pow]
    have := c.isLt
    have := v.isLt
    omega
  cases op <;> simp only [decodeOp, cmdWord]
  · have := key 1#2
    grind
  · have := key 2#2
    grind
  · have := key 3#2
    grind

@[simp] theorem decodeOp_cmdWord (op : Op) : decodeOp (cmdWord op) = some op := (decodeOp_eq_some _ _).2 rfl

@[simp] theorem decodeOp_one : decodeOp 1#32 = some .encser := decodeOp_cmdWord .encser
@[simp] theorem decodeOp_two : decodeOp 2#32 = some .enc := decodeOp_cmdWord .enc
@[simp] theorem decodeOp_three : decodeOp 3#32 = some .ser := decodeOp_cmdWord .ser

/-! ### ISSUE -/

/-- What a payload without an error is. -/
theorem payloadError_eq_none {m : Nat} {op : Op} {p : List Word} :
    payloadError m op p = none ↔
      p.length ≤ m ∧ (takesBytes op = true → ∀ w ∈ p, isIn8 w = true) ∧ (op = .ser → p.length % 2 = 0) := by
  have hb : (takesBytes op && p.any fun w => !isIn8 w) = false ↔ (takesBytes op = true → ∀ w ∈ p, isIn8 w = true) := by
    simp
  unfold payloadError
  split
  · simp only [reduceCtorEq, false_iff]
    omega
  · rw [← hb]
    split
    · simp_all
    · split <;> simp_all

/-- An ISSUE that may run ends in an accepted job or in a reported error, by the first error its word and payload have. -/
theorem issueTransition_eq (m : Nat) (c : Word) (p : List Word) (s : State) :
    issueTransition m c p s =
      match issueError m c p, decodeOp c with
      | some e, _ => (s.latch c).failIssue e
      | none, some op => (s.latch c).accept op p
      | none, none => s.latch c := by
  unfold issueTransition issueError
  cases decodeOp c with
  | none => rfl
  | some op => dsimp only; cases payloadError m op p <;> rfl

theorem issueAction_busy {m : Nat} {c : Word} {p : List Word} {s : State} (h : s.st = .busy) : issueAction m c p s = s := by
  simp [issueAction, h]

theorem issueAction_not_busy {m : Nat} {c : Word} {p : List Word} {s : State} (h : s.st ≠ .busy) :
    issueAction m c p s = (issueTransition m c p s).retire := by
  simp [issueAction, h]

/-- The three ways an ISSUE ends, when it answers `t`. -/
theorem issueAction_cases (m : Nat) (c : Word) (p : List Word) (s : State) :
    (s.st = .busy ∧ issueAction m c p s = s) ∨
    (s.st ≠ .busy ∧ ∃ e, issueError m c p = some e ∧ e ≠ .none ∧
      issueAction m c p s = ((s.latch c).failIssue e).retire) ∨
    (s.st ≠ .busy ∧ ∃ op, c = cmdWord op ∧ payloadError m op p = none ∧
      issueAction m c p s = ((s.latch c).accept op p).retire) := by
  by_cases hb : s.st = .busy
  · exact .inl ⟨hb, issueAction_busy hb⟩
  · rw [issueAction_not_busy hb]
    unfold issueTransition issueError
    cases hd : decodeOp c with
    | none => exact .inr (.inl ⟨hb, .illegalCmd, rfl, by decide, rfl⟩)
    | some op =>
      dsimp only
      cases he : payloadError m op p with
      | none => exact .inr (.inr ⟨hb, op, (decodeOp_eq_some c op).1 hd, he, rfl⟩)
      | some e =>
        refine .inr (.inl ⟨hb, e, rfl, ?_, rfl⟩)
        rintro rfl
        unfold payloadError at he
        split at he
        · cases he
        · split at he
          · cases he
          · split at he <;> cases he

/-! ### The sequencer -/

/-- Each symbol the sequencer can select, with the position that selects it. -/
theorem selected_cases {s : State} {i : Instr} (h : s.selected = some i) :
    s.st = .busy ∧
      ((i = .leader ∧ s.phase = .leader ∧ (s.opl = some .enc ∨ s.opl = some .encser)) ∨
       (i = decodeBit s.selectedBit ∧ s.phase = .data ∧ (s.opl = some .enc ∨ s.opl = some .encser) ∧ s.bitsLeft ≠ 0) ∨
       (∃ p q rest, i = .record p q ∧ s.phase = .data ∧ s.opl = some .ser ∧ s.src = p :: q :: rest) ∨
       (i = .trailer ∧ s.phase = .trailer ∧ (s.opl = some .encser ∨ s.opl = some .ser))) := by
  unfold State.selected at h
  split at h
  · simp_all
  · simp_all
  · split at h <;> simp_all
  · split at h <;> simp_all
  · split at h
    · simp_all
    · cases h
  · simp_all
  · simp_all
  · cases h

theorem decodeBit_cases (b : Bool) : (b = true ∧ decodeBit b = .bit1) ∨ (b = false ∧ decodeBit b = .bit0) := by
  cases b <;> simp [decodeBit]

theorem advance_of_leader {s : State} (h : s.phase = .leader) : s.advance = { s with phase := .data } := by
  simp [State.advance, h]

theorem advance_of_bit {s : State} (h : s.phase = .data) (ho : s.opl = some .enc ∨ s.opl = some .encser) :
    s.advance = { s with bitsLeft := bitsDown s.bitsLeft } := by
  rcases ho with ho | ho <;> simp [State.advance, h, ho]

theorem advance_of_record {s : State} (h : s.phase = .data) (ho : s.opl = some .ser) :
    s.advance = { s with src := s.src.drop 2 } := by
  simp [State.advance, h, ho]

theorem emit_of_enc {s : State} (p q : Dur) (h : s.opl = some .enc) :
    s.emit p q = { s with outd := s.outd ++ [p, q] } := by
  simp [State.emit, h]

theorem emit_of_bytes {s : State} (p q : Dur) (h : s.opl ≠ some .enc) :
    s.emit p q = { s with outb := s.outb ++ recordBytes p q } := by
  unfold State.emit
  split
  · contradiction
  · rfl

/-- Everything a block step can do, with its guards (42_job_control.md R145 to R150). -/
theorem blockStep_cases {s t : State} (h : blockStep s = .next t) :
    s.st = .busy ∧
      ((s.phase = .leader ∧ (s.opl = some .enc ∨ s.opl = some .encser) ∧
          t = { s.emit leaderPulse leaderSpace with phase := .data }) ∨
       (s.phase = .data ∧ (s.opl = some .enc ∨ s.opl = some .encser) ∧ s.bitsLeft ≠ 0 ∧
          t = { s.emit bitPulse (bitSpace s.selectedBit) with bitsLeft := bitsDown s.bitsLeft }) ∨
       (∃ w rest, s.phase = .data ∧ (s.opl = some .enc ∨ s.opl = some .encser) ∧ s.bitsLeft = 0 ∧ s.src = w :: rest ∧
          t = s.load w rest) ∨
       (s.phase = .data ∧ s.opl = some .enc ∧ s.bitsLeft = 0 ∧ s.src = [] ∧ t = { s with phase := .ended, st := .done }) ∨
       (s.phase = .data ∧ s.opl = some .encser ∧ s.bitsLeft = 0 ∧ s.src = [] ∧ t = { s with phase := .trailer }) ∨
       (s.phase = .data ∧ s.opl = some .ser ∧ s.src = [] ∧ t = { s with phase := .trailer }) ∨
       (∃ p q rest, s.phase = .data ∧ s.opl = some .ser ∧ s.src = p :: q :: rest ∧
          t = { s with outb := s.outb ++ recordBytes p q, src := rest }) ∨
       (s.phase = .trailer ∧ (s.opl = some .encser ∨ s.opl = some .ser) ∧
          t = { s with outb := s.outb ++ trailerBytes, phase := .ended, st := .done })) := by
  unfold blockStep at h
  cases hs : s.selected with
  | some i =>
    rw [hs] at h
    obtain ⟨hb, ⟨rfl, hp, ho⟩ | ⟨rfl, hp, ho, hl⟩ | ⟨p, q, rest, rfl, hp, ho, hr⟩ | ⟨rfl, hp, ho⟩⟩ := selected_cases hs
    · have he : exec .leader s = .next (s.emit leaderPulse leaderSpace).advance := by
        simp [exec, execLeader, hs]
      dsimp only at h
      rw [he, advance_of_leader (by simpa using hp)] at h
      injection h with h
      exact ⟨hb, .inl ⟨hp, ho, h.symm⟩⟩
    · have he : exec (decodeBit s.selectedBit) s = .next (s.emit bitPulse (bitSpace s.selectedBit)).advance := by
        obtain ⟨hbit, hd⟩ | ⟨hbit, hd⟩ := decodeBit_cases s.selectedBit <;> rw [hd] at hs ⊢ <;>
          simp [exec, execBit0, execBit1, hs, hbit, bitSpace]
      dsimp only at h
      rw [he, advance_of_bit (by simpa using hp) (by simpa using ho)] at h
      injection h with h
      refine ⟨hb, .inr (.inl ⟨hp, ho, hl, ?_⟩)⟩
      simpa using h.symm
    · have he : exec (.record p q) s = .next { s with outb := s.outb ++ recordBytes p q }.advance := by
        simp [exec, execRecord, State.selectedPair, hs, ho]
      dsimp only at h
      rw [he, advance_of_record (by simpa using hp) (by simpa using ho)] at h
      injection h with h
      refine ⟨hb, .inr (.inr (.inr (.inr (.inr (.inr (.inl ⟨p, q, rest, hp, ho, hr, ?_⟩))))))⟩
      simpa [hr] using h.symm
    · have he : exec .trailer s = .next { s with outb := s.outb ++ trailerBytes, phase := .ended, st := .done } := by
        simp [exec, execTrailer, hs]
      dsimp only at h
      rw [he] at h
      injection h with h
      exact ⟨hb, .inr (.inr (.inr (.inr (.inr (.inr (.inr ⟨hp, ho, h.symm⟩))))))⟩
  | none =>
    rw [hs] at h
    simp only [bookkeepingStep] at h
    split at h
    · rename_i w rest hb hp ho hr
      injection h with h
      refine ⟨hb, .inr (.inr (.inl ⟨w, rest, hp, .inl ho, ?_, hr, h.symm⟩))⟩
      by_contra hl
      simp [State.selected, hb, hp, ho, hl] at hs
    · rename_i w rest hb hp ho hr
      injection h with h
      refine ⟨hb, .inr (.inr (.inl ⟨w, rest, hp, .inr ho, ?_, hr, h.symm⟩))⟩
      by_contra hl
      simp [State.selected, hb, hp, ho, hl] at hs
    · rename_i op hb hp ho hr
      injection h with h
      refine ⟨hb, ?_⟩
      have hl : op ≠ .ser → s.bitsLeft = 0 := by
        intro hne
        by_contra hl
        cases op <;> simp [State.selected, hb, hp, ho, hl] at hs hne
      cases op <;> simp only [State.exhaust, ho] at h <;> simp_all
    · cases h

/-- In a state no rule reaches, no symbol is selected and the block step is the fault. -/
theorem blockStep_of_unreachable {s : State} (h : s.unreachable = true) :
    s.selected = none ∧ blockStep s = .fault .unreachableState := by
  have hs : s.selected = none := by
    unfold State.unreachable at h
    split at h <;> simp_all [State.selected]
  refine ⟨hs, ?_⟩
  simp only [blockStep, hs, bookkeepingStep]
  unfold State.unreachable at h
  split at h <;> simp_all

theorem reachable_of_selected {s : State} {i : Instr} (h : s.selected = some i) : s.unreachable = false := by
  by_contra hu
  simp [(blockStep_of_unreachable (by simpa using hu)).1] at h

theorem reachable_of_blockStep {s t : State} (h : blockStep s = .next t) : s.unreachable = false := by
  by_contra hu
  simp [(blockStep_of_unreachable (by simpa using hu)).2] at h

theorem reachable_of_not_busy {s : State} (h : s.st ≠ .busy) : s.unreachable = false := by
  unfold State.unreachable
  split <;> simp_all

/-- A BUSY block that is in no unreachable state has a block step. -/
theorem blockStep_of_reachable {s : State} (hb : s.st = .busy) (h : s.unreachable = false) : ∃ t, blockStep s = .next t := by
  unfold blockStep
  cases hs : s.selected with
  | some i =>
    obtain ⟨-, ⟨rfl, -, -⟩ | ⟨rfl, -, -, -⟩ | ⟨p, q, rest, rfl, -, ho, -⟩ | ⟨rfl, -, -⟩⟩ := selected_cases hs
    · exact ⟨_, by simp [exec, execLeader, hs]; rfl⟩
    · obtain ⟨-, hd⟩ | ⟨-, hd⟩ := decodeBit_cases s.selectedBit <;> rw [hd] at hs ⊢
      · exact ⟨_, by simp [exec, execBit1, hs]; rfl⟩
      · exact ⟨_, by simp [exec, execBit0, hs]; rfl⟩
    · exact ⟨_, by simp [exec, execRecord, State.selectedPair, hs, ho]; rfl⟩
    · exact ⟨_, by simp [exec, execTrailer, hs]; rfl⟩
  | none =>
    obtain ⟨cmd, st, err, opl, src, phase, shreg, left, outd, outb, program, responses, choices, turn⟩ := s
    simp only at hb
    subst hb
    cases phase <;> rcases opl with _ | op <;> try cases op
    all_goals rcases src with _ | ⟨w, _ | ⟨v, rest⟩⟩ <;> simp_all [State.unreachable, State.selected, bookkeepingStep]

/-! ### The step -/

theorem step_of_unreachable {s : State} (h : s.unreachable = true) : step s = .fault .unreachableState := by
  simp [step, h]

theorem step_of_reachable {s : State} (h : s.unreachable = false) : step s = moverStep s := by
  simp [step, h]

theorem reachable_of_step {s t : State} (h : step s = .next t) : s.unreachable = false := by
  by_contra hu
  simp [step_of_unreachable (by simpa using hu)] at h

/-- Everything a step can do: nothing where neither agent may move, the host's next action, or a block step. -/
theorem step_cases {s t : State} (h : step s = .next t) :
    (s.mover = none ∧ s.st ≠ .busy ∧ t = s) ∨
    (∃ a rest, s.mover = some .host ∧ s.program = a :: rest ∧ actionEnabled s a = true ∧ exec a.toInstr s.settled = .next t) ∨
    (s.mover = some .block ∧ s.st = .busy ∧ blockStep s.settled = .next t) := by
  rw [step_of_reachable (reachable_of_step h)] at h
  unfold moverStep at h
  cases hm : s.mover with
  | none =>
    rw [hm] at h
    injection h with h
    refine .inl ⟨rfl, ?_, h.symm⟩
    intro hb
    simp only [State.mover, State.blockEnabled, hb] at hm
    split at hm
    · cases hm
    · split at hm <;> simp at hm
  | some a =>
    rw [hm] at h
    cases a with
    | host =>
      have he : s.hostEnabled = true := by
        by_contra hn
        simp [State.mover, State.contended, hn] at hm
      simp only [hostStep, settled_program] at h
      cases hp : s.program with
      | nil => simp [State.hostEnabled, hp] at he
      | cons b rest =>
        rw [hp] at h
        simp [State.hostEnabled, hp] at he
        exact .inr (.inl ⟨b, rest, rfl, rfl, he, h⟩)
    | block =>
      refine .inr (.inr ⟨rfl, ?_, h⟩)
      by_contra hb
      have hb' : s.blockEnabled = false := by simp [State.blockEnabled, hb]
      simp [State.mover, State.contended, hb'] at hm

/-- What a host action's meaning answers, when it answers a next state. -/
theorem hostAction_cases {a : HostAction} {s t : State} (h : exec a.toInstr s = .next t) :
    (∃ c p, a = .issue c p ∧ t = issueAction Config.maxItems c p s) ∨
    (a = .reset ∧ t = s.resetBlock.retire) ∨
    (a = .wait ∧ t = (if s.st = .busy then s else s.retire)) ∨
    (∃ r, (∃ n, a = .rdreg n) ∧ t = s.retire.respond r) ∨
    (∃ r, (∃ n, a = .rdout n) ∧ t = s.retire.respond r) := by
  cases a with
  | issue c p =>
    simp [HostAction.toInstr, exec, execIssue] at h
    exact .inl ⟨c, p, rfl, h.symm⟩
  | wait =>
    simp only [HostAction.toInstr, exec, execWait, Host.Outcome.next.injEq] at h
    exact .inr (.inr (.inl ⟨rfl, h.symm⟩))
  | rdreg n =>
    simp only [HostAction.toInstr, exec, execRdreg] at h
    split at h
    · injection h with h
      exact .inr (.inr (.inr (.inl ⟨_, ⟨n, rfl⟩, h.symm⟩)))
    · cases h
  | rdout n =>
    simp only [HostAction.toInstr, exec, execRdout] at h
    split at h
    · injection h with h
      exact .inr (.inr (.inr (.inr ⟨_, ⟨n, rfl⟩, h.symm⟩)))
    · cases h
  | reset =>
    simp [HostAction.toInstr, exec, execReset] at h
    exact .inr (.inl ⟨rfl, h.symm⟩)

end Sys2Proof.Machine
end

