-- ==== Sys2Proof/Laws/Output.lean ====
section
/-!
SUPPORT. The lemmas the laws of the machine as a whole rest on: what MAX_ITEMS may be, which functions of the state read the block's
fields only, and what a step that is no ISSUE and no RESET can be.
-/

namespace Sys2Proof.Machine

/-- MAX_ITEMS lies in the range of 00_scope.md R9. -/
theorem maxItems_bounds : 1 ≤ Config.maxItems ∧ Config.maxItems ≤ 67108863 := by
  have := Config.maxItemsLessOne.isLt
  unfold Config.maxItems
  omega

theorem sameBlock_settled (s : State) : sameBlock s s.settled := by simp [sameBlock]
theorem sameBlock_retire (s : State) : sameBlock s s.retire := by simp [sameBlock]
theorem sameBlock_respond (s : State) (r : Response) : sameBlock s (s.respond r) := by simp [sameBlock]

/-- The next pairs of the byte being emitted: the selected bit's pair, then the rest (10_state.md R32). -/
theorem bitPairs_selected {s : State} (h : s.bitsLeft ≠ 0) :
    bitPairs s.shreg s.bitsLeft.val =
      (bitPulse, bitSpace s.selectedBit) :: bitPairs s.shreg (bitsDown s.bitsLeft).val := by
  unfold State.selectedBit
  generalize s.bitsLeft = b at h
  obtain ⟨n, hn⟩ := b
  cases n with
  | zero => exact absurd rfl h
  | succ n => rfl

/-- A step that is neither an ISSUE nor a RESET leaves the block as it is, or is a block step. -/
theorem step_keeps_or_blockSteps {s t : State} (h : step s = .next t) (hd : ¬ s.discarding) :
    sameBlock s t ∨ (s.st = .busy ∧ blockStep s.settled = .next t) := by
  obtain ⟨-, -, rfl⟩ | ⟨a, rest, hm, hp, -, h⟩ | ⟨-, hb, h⟩ := step_cases h
  · simp [sameBlock]
  · obtain ⟨c, p, rfl, rfl⟩ | ⟨rfl, rfl⟩ | ⟨-, rfl⟩ | ⟨r, -, rfl⟩ | ⟨r, -, rfl⟩ := hostAction_cases h
    · exact absurd ⟨hm, _, rest, hp, rfl⟩ hd
    · exact absurd ⟨hm, _, rest, hp, rfl⟩ hd
    · left
      split <;> simp [sameBlock]
    · simp [sameBlock]
    · simp [sameBlock]
  · exact .inr ⟨hb, h⟩

end Sys2Proof.Machine
end

