-- ==== Sys2Proof/Laws/PerInstr.lean ====
section
/-!
SUPPORT. Statements about every instruction, one lemma per constructor.
-/

namespace Sys2Proof.Laws.Accepted

/-- The decoder accepts the code the encoder makes of the instruction: no constructor encodes to a rejected code. -/
def Statement (i : Instr) : Prop := ∃ j, Sys2Proof.decode (Sys2Proof.encode i) = .ok j

theorem encser (payload : List Word) : Statement (.encser payload) := ⟨_, rfl⟩
theorem enc (payload : List Word) : Statement (.enc payload) := ⟨_, rfl⟩
theorem ser (payload : List Word) : Statement (.ser payload) := ⟨_, rfl⟩
theorem illegal (word : Word) (payload : List Word) : Statement (.illegal word payload) := ⟨_, rfl⟩
theorem bit0 : Statement .bit0 := ⟨_, rfl⟩
theorem bit1 : Statement .bit1 := ⟨_, rfl⟩
theorem leader : Statement .leader := ⟨.leader, by decide⟩
theorem record (pulse space : Dur) : Statement (.record pulse space) := ⟨_, rfl⟩
theorem trailer : Statement .trailer := ⟨.trailer, by decide⟩
theorem issue (cmd : Word) (payload : List Word) : Statement (.issue cmd payload) := ⟨_, rfl⟩
theorem wait : Statement .wait := ⟨_, rfl⟩
theorem rdreg (n : Nat) : Statement (.rdreg n) := ⟨_, rfl⟩
theorem rdout (i : Nat) : Statement (.rdout i) := ⟨_, rfl⟩
theorem reset : Statement .reset := ⟨_, rfl⟩

end Sys2Proof.Laws.Accepted
end

