-- ==== Sys2Proof/Tests/Slice0.lean ====
section
/-!
SUPPORT. Tests of the model against values of spec/ (95_test_vectors.md and the tables of the rules), and for each obligation with
hypotheses a state and operands that meet them.
-/

namespace Sys2Proof.Tests.Slice0

open Sys2Proof Sys2Proof.Machine

/-- A running job. -/
def job (op : Op) (phase : Phase) (src : List Word := []) (shreg : Byte := 0) (bitsLeft : Fin 9 := 0) : State :=
  { State.reset with
    cmd := cmdWord op, st := .busy, opl := some op, phase := phase, src := src, shreg := shreg, bitsLeft := bitsLeft }

/-- A finished job with its output. -/
def finished (op : Op) (outd : List Dur) (outb : List Byte) : State :=
  { State.reset with cmd := cmdWord op, st := .done, opl := some op, outd := outd, outb := outb }

/-- Whether an outcome is a given fault, or a given refusal. -/
def stopsWith (o : Host.Outcome State Fault Refusal) (f : Fault) : Bool :=
  match o with
  | .fault g => g == f
  | _ => false

def refusesWith (o : Host.Outcome State Fault Refusal) (r : Refusal) : Bool :=
  match o with
  | .refused q => q == r
  | _ => false

/-! ### Encodings, written out from 30_encoding.md -/

theorem test_decode_encser : decode (.cmd [0b00000000000000000000000000000001#32, 0x80#32]) = .ok (.encser [0x80#32]) := by decide
theorem test_decode_enc : decode (.cmd [0b00000000000000000000000000000010#32]) = .ok (.enc []) := by decide
theorem test_decode_ser : decode (.cmd [0b00000000000000000000000000000011#32, 460#32, 600#32]) = .ok (.ser [460#32, 600#32]) := by
  decide
theorem test_decode_reserved_op : decode (.cmd [0#32]) = .ok (.illegal 0#32 []) := by decide
theorem test_decode_reserved_bit : decode (.cmd [0x00000007#32, 0#32]) = .ok (.illegal 7#32 [0#32]) := by decide
theorem test_decode_bit0 : decode (.bit 0b0#1) = .ok .bit0 := by decide
theorem test_decode_bit1 : decode (.bit 0b1#1) = .ok .bit1 := by decide
theorem test_decode_leader : decode (.leader [0xFE#8, 0x10#8, 0x00#8, 0x00#8, 0xFE#8, 0x10#8, 0x00#8, 0x00#8]) = .ok .leader := by
  decide
theorem test_decode_record :
    decode (.pair [0x78#8, 0x56#8, 0x34#8, 0x12#8, 0xF0#8, 0xDE#8, 0xBC#8, 0x9A#8]) =
      .ok (.record 0x12345678#32 0x9ABCDEF0#32) := by decide
theorem test_decode_trailer : decode (.trl [0xCA#8, 0x01#8, 0x00#8, 0x00#8]) = .ok .trailer := by decide
theorem test_decode_actions :
    decode (.action (.issue 3#32 [1#32])) = .ok (.issue 3#32 [1#32]) ∧ decode (.action .wait) = .ok .wait ∧
    decode (.action (.rdreg 2)) = .ok (.rdreg 2) ∧ decode (.action (.rdout 75)) = .ok (.rdout 75) ∧
    decode (.action .reset) = .ok .reset := by decide
theorem test_decode_rejects :
    decode (.cmd []) = .error .noCommandWord ∧ decode (.leader [0xFE#8]) = .error .notTheLeader ∧
    decode (.pair [0#8, 0#8, 0#8, 0#8, 0#8, 0#8, 0#8]) = .error .notARecord ∧
    decode (.trl [0xCB#8, 0x01#8, 0x00#8, 0x00#8]) = .error .notTheTrailer := by decide

/-- The one check of WellFormed: an ILLEGAL row may not carry a legal word. -/
theorem test_illformed_illegal_rows :
    (Instr.illegal 1#32 []).wf = false ∧ (Instr.illegal 2#32 []).wf = false ∧ (Instr.illegal 3#32 []).wf = false ∧
    (Instr.illegal 0#32 []).wf = true ∧ (Instr.illegal 0x80000001#32 []).wf = true := by decide

/-! ### The functions (95 sections 1 to 3) -/

/-- E5. -/
theorem test_encode_0x80 :
    encodePulses [0x80#8] = [4350#32, 4350#32, 460#32, 1600#32, 460#32, 600#32, 460#32, 600#32, 460#32, 600#32, 460#32, 600#32,
      460#32, 600#32, 460#32, 600#32, 460#32, 600#32] := by decide

/-- The spaces of 0xA5 and of 0x12, from the table of 95 section 2. -/
theorem test_encode_spaces :
    (encodePairs [0xA5#8]).tail.map (·.2) = [1600#32, 600#32, 1600#32, 600#32, 600#32, 1600#32, 600#32, 1600#32] ∧
    (encodePairs [0x12#8]).tail.map (·.2) = [600#32, 600#32, 600#32, 1600#32, 600#32, 600#32, 1600#32, 600#32] := by decide

/-- The table of 95 section 3. -/
theorem test_serialize_table :
    serialize [] = .ok [0xCA#8, 0x01#8, 0#8, 0#8] ∧
    serialize [0#32, 0xFFFFFFFF#32] =
      .ok [0#8, 0#8, 0#8, 0#8, 0xFF#8, 0xFF#8, 0xFF#8, 0xFF#8, 0xCA#8, 0x01#8, 0#8, 0#8] ∧
    serialize [1#32, 2#32, 3#32] = .error .oddLength := by decide

/-- E6. -/
theorem test_empty_buffer :
    encodedBuffer [] = [0xFE#8, 0x10#8, 0#8, 0#8, 0xFE#8, 0x10#8, 0#8, 0#8, 0xCA#8, 0x01#8, 0#8, 0#8] := by decide

/-! ### ISSUE with MAX_ITEMS = 2 (95 section 4, J1 to J13) -/

theorem test_issue_illegal_words :
    ([(0x00000000#32, []), (0x00000004#32, []), (0x00000007#32, [0#32, 0#32]), (0x80000001#32, []),
        (0x00000004#32, [1#32, 2#32, 3#32])].map fun (c, p) =>
      let t := issueTransition 2 c p State.reset
      (t.st.code, errCode t.err, t.cmd == c, t.opl)) = List.replicate 5 (3#2, 1#4, true, none) := by decide

theorem test_issue_payload_checks :
    ([(3#32, [1#32, 2#32, 3#32]), (2#32, [0x100#32, 0#32, 0#32]), (2#32, [0x100#32]), (1#32, [0xFFFFFFFF#32]),
        (3#32, [0xFFFFFFFF#32, 0x100#32]), (3#32, [7#32]), (2#32, [0#32, 0#32]), (1#32, [1#32, 2#32, 3#32])].map fun (c, p) =>
      let t := issueTransition 2 c p State.reset
      (t.st.code, errCode t.err)) =
      [(3#2, 2#4), (3#2, 2#4), (3#2, 3#4), (3#2, 3#4), (1#2, 0#4), (3#2, 4#4), (1#2, 0#4), (3#2, 2#4)] := by decide

/-- R141's example. -/
theorem test_issue_encser_example :
    nextOf (exec (.encser [0x80#32]) State.reset) = some (job .encser .leader [0x80#32]) := by decide

/-- V12: CMD reads back as written. -/
theorem test_illegal_reads_back :
    (nextOf (exec (.illegal 5#32 []) State.reset)).map (fun t => (t.readReg 0, t.readReg 1, t.readReg 2, t.readReg 3)) =
      some (some 5#32, some 3#32, some 1#32, some 0#32) := by decide

/-- V8. -/
theorem test_issue_holds : nextOf (exec (.issue 2#32 []) (job .enc .data)) = some (job .enc .data) := by decide

/-! ### Block steps (95 sections 4.1 to 4.3) -/

theorem test_leader_encser :
    nextOf (blockStep (job .encser .leader [0x80#32])) =
      some { job .encser .data [0x80#32] with outb := [0xFE#8, 0x10#8, 0#8, 0#8, 0xFE#8, 0x10#8, 0#8, 0#8] } := by decide
theorem test_leader_enc :
    nextOf (exec .leader (job .enc .leader)) = some { job .enc .data with outd := [4350#32, 4350#32] } := by decide
theorem test_load : nextOf (blockStep (job .encser .data [0x80#32, 1#32])) = some (job .encser .data [1#32] 0x80#8 8) := by decide
theorem test_bit1_first :
    nextOf (blockStep (job .encser .data [] 0x80#8 8)) =
      some { job .encser .data [] 0x80#8 7 with outb := [0xCC#8, 0x01#8, 0#8, 0#8, 0x40#8, 0x06#8, 0#8, 0#8] } := by decide
theorem test_bit1_last :
    nextOf (exec .bit1 (job .enc .data [] 0x01#8 1)) =
      some { job .enc .data [] 0x01#8 0 with outd := [460#32, 1600#32] } := by decide
theorem test_bit0_after_bit7 :
    nextOf (exec .bit0 (job .encser .data [] 0x80#8 7)) =
      some { job .encser .data [] 0x80#8 6 with outb := [0xCC#8, 0x01#8, 0#8, 0#8, 0x58#8, 0x02#8, 0#8, 0#8] } := by decide
theorem test_bit0_not_selected : stopsWith (exec .bit0 (job .encser .data [] 0x80#8 8)) .notSelected = true := by decide
theorem test_record_ser :
    nextOf (exec (.record 460#32 600#32) (job .ser .data [460#32, 600#32, 1#32, 2#32])) =
      some { job .ser .data [1#32, 2#32] with outb := [0xCC#8, 0x01#8, 0#8, 0#8, 0x58#8, 0x02#8, 0#8, 0#8] } := by decide
theorem test_trailer :
    (nextOf (blockStep (job .ser .trailer))).map (fun t => (t.st.code, t.phase, t.outb)) =
      some (2#2, .ended, [0xCA#8, 0x01#8, 0#8, 0#8]) := by decide
theorem test_exhaust :
    (nextOf (blockStep (job .enc .data))).map (fun t => (t.st.code, t.phase)) = some (2#2, .ended) ∧
    (nextOf (blockStep (job .encser .data))).map (fun t => (t.st.code, t.phase)) = some (1#2, .trailer) := by decide
theorem test_unreachable :
    stopsWith (step (job .enc .ended)) .unreachableState = true ∧
    stopsWith (step { job .enc .ended with program := [.rdreg 1], choices := [.host] }) .unreachableState = true ∧
    stopsWith (step (job .ser .data [1#32])) .unreachableState = true := by decide

/-! ### Host actions (95 sections 5 and 6) -/

/-- V9, V10. -/
theorem test_rdreg :
    (nextOf (exec (.rdreg 1) (finished .ser [] [1#8, 2#8]))).map (·.responses) = some [.reg 1 2#32] ∧
    refusesWith (exec (.rdreg 4) State.reset) (.noSuchRegister 4) = true := by decide
theorem test_outlen :
    (finished .enc [4350#32, 4350#32] []).readReg 3 = some 2#32 ∧ (finished .ser [] [1#8, 2#8, 3#8]).readReg 3 = some 3#32 := by
  decide
/-- V11, V9. -/
theorem test_rdout :
    (nextOf (exec (.rdout 1) (finished .enc [4350#32, 4351#32] []))).map (·.responses) = some [.duration 1 4351#32] ∧
    (nextOf (exec (.rdout 1) (finished .encser [] [0xFE#8, 0x10#8]))).map (·.responses) = some [.byte 1 0x10#8] := by decide
theorem test_rdout_refused :
    refusesWith (exec (.rdout 2) (finished .enc [4350#32, 4350#32] [])) (.noSuchOutput 2) = true ∧
    refusesWith (exec (.rdout 0) State.reset) (.noSuchOutput 0) = true := by decide
/-- V14. -/
theorem test_reset_while_busy :
    nextOf (exec .reset { job .encser .data [] 0xAA#8 6 with outb := [1#8], program := [.reset, .rdreg 1] }) =
      some { State.reset with program := [.rdreg 1] } := by decide
theorem test_wait :
    nextOf (exec .wait { State.reset with program := [.wait] }) = some State.reset ∧
    nextOf (exec .wait (job .enc .data)) = some (job .enc .data) := by decide

/-! ### Steps -/

theorem test_step_idle : nextOf (step State.reset) = some State.reset := by decide
theorem test_step_wait_lets_the_block_move :
    (nextOf (step { job .ser .data [] with program := [.wait] })).map (fun t => (t.phase, t.program)) =
      some (.trailer, [.wait]) := by decide
theorem test_step_given_choice :
    (nextOf (step { job .ser .data [] with program := [.reset], choices := [.host] })).map (·.st) = some .idle ∧
    (nextOf (step { job .ser .data [] with program := [.reset], choices := [.block] })).map (·.phase) = some .trailer := by decide
theorem test_placed_words_run :
    (nextOf (step (State.reset.withFetchWord 32 1))).map (·.opl) = some (some .encser) ∧
    (nextOf (step (State.reset.withFetchWord 32 0))).map (·.err) = some .illegalCmd ∧
    (nextOf (step (State.reset.withFetchWord 8 0))).map (·.outd) = some [460#32, 600#32] ∧
    (nextOf (step (State.reset.withFetchWord 8 1))).map (·.outd) = some [460#32, 1600#32] := by decide

/-! ### Host programs and host context (95 sections 1 and 7) -/

/-- E7 and the decoded byte of P6. -/
theorem test_hex :
    hexGroups .upper ['8', '0'] = some [0x80#8] ∧ hexGroups .both ['a', '5'] = some [0xA5#8] ∧
    hexGroups .both ['A', 'B', 'C'] = none ∧ hexGroups .both ['G', '1'] = none ∧ hexGroups .both [] = some [] := by decide

/-- The first line of P1, with its comment. -/
theorem test_assemble_run :
    ((parseLine ['r', 'u', 'n', ' ', 'e', 'n', 'c', 's', 'e', 'r', ',', ' ', '[', '0', 'x', '8', '0', ']', ' ', ';', ' ', 'a']).bind
      (expandLine .both State.reset)).map (·.actions) = some [.issue 1#32 [0x80#32], .wait] := by decide

theorem test_assemble_lines :
    parseLine ['r', 'd', 'r', 'e', 'g', ' ', 'e', 'r', 'r'] = some (.rdreg 2) ∧
    parseLine ['i', 's', 's', 'u', 'e', ' ', '5', ',', '[', ']'] = some (.issue (.literal 5) []) ∧
    parseLine ['r', 'd', 'o', 'u', 't'] = none ∧
    programLines [[';'], ['w', 'a', 'i', 't']] = some [.wait] := by decide

/-- A payload number of 2^32 spells no program (R83), neither as a line nor in a text; one of 2^32 − 1 does. -/
theorem test_range_check :
    programLines [['r', 'e', 's', 'e', 't'], ['r', 'u', 'n', ' ', 'e', 'n', 'c', ',', '[', '4', '2', '9', '4', '9', '6', '7', '2',
      '9', '6', ']']] = none ∧
    programLines [['r', 'u', 'n', ' ', 's', 'e', 'r', ',', '[', '0', 'x', 'f', 'f', 'f', 'f', 'f', 'f', 'f', 'f', ']']] =
      some [.run (.named .ser) [2 ^ 32 - 1]] := by decide

/-- E7: a failed control call stops before the write and still releases the handle. -/
theorem test_control_failure :
    (deviceSequence ⟨.succeeded, .failed ['x'], .succeeded, .succeeded⟩ { devicePath := ['p'] } [1#8]).ops =
      [.open ['p'] .readWrite, .control 0x40046913#32 .carrierFrequencyHz, .release] ∧
    controlsSeen { devicePath := ['p'] } [.control 0x40046915#32 .dutyCyclePercent] = [(0x40046915#32, 50#32)] := by decide

/-! ### Witnesses: what meets the hypotheses of the obligations -/

/-- A payload longer than any MAX_ITEMS. -/
theorem witness_too_long : ∃ p : List Word, p.length > Config.maxItems :=
  ⟨List.replicate (Config.maxItems + 1) 0#32, by simp⟩

theorem witness_DecodeOfEncode : (Instr.illegal 0#32 []).wf = true ∧ (Instr.record 1#32 2#32).wf = true := by decide

theorem witness_PlacedWord :
    decodeTableWord 32 3 = some (.ser []) ∧ decodeTableWord 8 1 = some .bit1 ∧
    decodeTableWord 64 0x9ABCDEF012345678 = some (.record 0x12345678#32 0x9ABCDEF0#32) := by decide

theorem witness_StepRuns :
    actionEnabled State.reset .wait = true ∧ State.reset.st ≠ .busy ∧
    (job .ser .trailer).hostEnabled = false ∧ (job .ser .trailer).selected = some .trailer ∧
    actionEnabled (job .ser .trailer) (.rdreg 3) = true ∧ (job .ser .trailer).st = .busy ∧
    (job .ser .trailer).choices = [] ∧ (job .ser .trailer).unreachable = false ∧
    (job .ser .data).selected = none ∧ (job .ser .data).unreachable = false ∧ (job .ser .data).hostEnabled = false := by decide

/-- Payloads that start each command row's job, at the largest length there always is room for. -/
theorem witness_CommandRowsStart :
    State.reset.st ≠ .busy ∧ [0xFF#32].length ≤ Config.maxItems ∧ (∀ w ∈ [0xFF#32], w.extractLsb' 8 24 = 0#24) ∧
    ([] : List Word).length ≤ Config.maxItems ∧ ([] : List Word).length % 2 = 0 := by
  refine ⟨by decide, ?_, by simp, by simp, by decide⟩
  simp [Config.maxItems]

theorem witness_IllegalWord : State.reset.st ≠ .busy ∧ (Instr.illegal 4#32 [1#32]).wf = true := by decide

theorem witness_CommandRowsReport :
    (∃ p : List Word, p.length > Config.maxItems) ∧
    ([0x100#32].length ≤ Config.maxItems ∧ ∃ w ∈ [0x100#32], w.extractLsb' 8 24 ≠ 0#24) ∧
    ([7#32].length ≤ Config.maxItems ∧ [7#32].length % 2 = 1) := by
  refine ⟨witness_too_long, ⟨?_, 0x100#32, by simp, by decide⟩, ?_, by decide⟩ <;> simp [Config.maxItems]

theorem witness_IssueHolds :
    (job .enc .data).st = .busy ∧ { job .enc .data with program := [.issue 1#32 []] }.program = [.issue 1#32 []] := by decide

theorem witness_FailedIssue : State.reset.st ≠ .busy ∧ issueError Config.maxItems 0#32 [] = some .illegalCmd := by decide

theorem witness_EarlierJobs :
    State.reset.st ≠ .busy ∧ (finished .enc [1#32] []).st ≠ .busy ∧
    (nextOf (exec (.issue 2#32 [5#32]) State.reset)).isSome = true ∧
    (nextOf (exec (.issue 2#32 [5#32]) (finished .enc [1#32] []))).isSome = true ∧
    (nextOf (blockRun 1 (job .enc .leader [5#32]))).isSome = true := by decide

theorem witness_Wait : State.reset.st ≠ .busy ∧ (job .enc .data).st = .busy := by decide

theorem witness_Rdout :
    0 < (finished .enc [1#32] []).outd.length ∧ (finished .enc [1#32] []).opl = some .enc ∧
    0 < (finished .ser [] [1#8]).outb.length ∧ (finished .ser [] [1#8]).opl = some .ser ∧ State.reset.opl = none ∧
    (finished .enc [1#32] []).outd.length ≤ 1 ∧ (finished .ser [] [1#8]).outb.length ≤ 1 := by decide

theorem witness_HostSide :
    State.reset.readReg 3 = some 0#32 ∧ (finished .ser [] [1#8]).outRead 0 = some (.byte 0 1#8) ∧
    (nextOf (exec .reset State.reset)).isSome = true ∧ (nextOf (exec (.issue 9#32 []) State.reset)).isSome = true := by decide

theorem witness_ReadsAndWait :
    (nextOf (exec .wait State.reset)).isSome = true ∧ (nextOf (exec (.rdreg 0) State.reset)).isSome = true ∧
    (nextOf (exec (.rdout 0) (finished .ser [] [1#8]))).isSome = true := by decide

theorem reset_inv : State.reset.Inv := by
  constructor <;>
    simp [State.statusFits, State.cleared, State.outputFits, State.wholeSymbols, State.outputBounded, State.finalOutd,
      State.finalOutb, State.reset]

/-- A running ENC job, and a SER job in its data phase, that meet the invariant. -/
theorem leader_inv : (job .enc .leader).Inv := by
  constructor <;>
    simp [State.statusFits, State.running, State.outputFits, State.wholeSymbols, State.outputBounded, State.finalOutd,
      State.finalOutb, State.pendingPairs, wordPairs, State.reset, job]

theorem ser_inv : (job .ser .data).Inv := by
  constructor <;>
    simp [State.statusFits, State.running, State.outputFits, State.wholeSymbols, State.outputBounded, State.finalOutd,
      State.finalOutb, State.pendingPairs, pairsOf, trailerBytes, State.reset, job]

theorem done_inv : (finished .ser [] trailerBytes).Inv := by
  constructor <;>
    simp [State.statusFits, State.outputFits, State.wholeSymbols, State.outputBounded, State.finalOutd, State.finalOutb,
      trailerBytes, State.reset, finished]

theorem witness_Outlen :
    ((job .enc .leader).Inv ∧ (job .enc .leader).opl = some .enc) ∧ ((job .ser .data).Inv ∧ (job .ser .data).opl ≠ some .enc) :=
  ⟨⟨leader_inv, by decide⟩, ser_inv, by decide⟩

theorem witness_Leader :
    (job .enc .leader).st = .busy ∧ (job .enc .leader).phase = .leader ∧ (job .enc .leader).opl = some .enc ∧
    (job .encser .leader).opl = some .encser := by decide

/-- The highest and the lowest selected bit, of either value. -/
theorem witness_Bits :
    (job .enc .data [] 0x80#8 8).bitsLeft ≠ 0 ∧ (job .enc .data [] 0x80#8 8).shreg.getLsbD 7 = true ∧
    (job .enc .data [] 0x80#8 1).bitsLeft ≠ 0 ∧ (job .enc .data [] 0x80#8 1).shreg.getLsbD 0 = false ∧
    (job .encser .data [] 0x01#8 1).shreg.getLsbD 0 = true ∧ (job .encser .data [] 0x01#8 8).shreg.getLsbD 7 = false := by decide

theorem witness_Record :
    (job .ser .data [0#32, 0xFFFFFFFF#32]).src = [0#32, 0xFFFFFFFF#32] ∧
    (job .encser .leader).selected = some .leader ∧ (job .encser .data [] 0x80#8 7).selected = some .bit0 ∧
    (job .encser .data [] 0x80#8 8).selected = some .bit1 := by decide

theorem witness_Trailer :
    (job .encser .trailer).st = .busy ∧ (job .encser .trailer).phase = .trailer ∧ (job .encser .trailer).opl = some .encser ∧
    (job .ser .trailer).opl = some .ser := by decide

theorem witness_SymbolsFrame :
    (nextOf (exec .leader (job .enc .leader))).isSome = true ∧ (nextOf (exec .bit0 (job .enc .data [] 0#8 1))).isSome = true ∧
    (nextOf (exec .bit1 (job .enc .data [] 1#8 1))).isSome = true ∧
    (nextOf (exec (.record 1#32 2#32) (job .ser .data [1#32, 2#32]))).isSome = true ∧
    (nextOf (exec .trailer (job .ser .trailer))).isSome = true := by decide

theorem witness_Unselected :
    State.reset.selected ≠ some .leader ∧ State.reset.selected ≠ some .bit0 ∧ State.reset.selected ≠ some .bit1 ∧
    State.reset.selected ≠ some .trailer ∧ State.reset.selectedPair ≠ some (1#32, 2#32) ∧
    (job .enc .leader).opl = some .enc := by decide

theorem witness_DataStep :
    (job .enc .data).bitsLeft = 0 ∧ (job .enc .data).src = [] ∧ (job .encser .data).src = [] ∧
    (job .encser .data [0xFF#32]).src = [0xFF#32] ∧ (job .enc .data [] 1#8 1).bitsLeft ≠ 0 := by decide

theorem witness_SerSteps :
    (job .ser .data).st = .busy ∧ (job .ser .data).src = [] ∧ (job .ser .data [1#32]).src = [1#32] ∧ (job .ser .data).Inv :=
  ⟨by decide, by decide, by decide, ser_inv⟩

theorem witness_Unreachable :
    (job .enc .ended).st = .busy ∧ (job .enc .ended).phase = .ended ∧ (job .ser .data [1#32]).src = [1#32] ∧
    (job .ser .leader).phase = .leader ∧ (job .enc .trailer).phase = .trailer ∧
    { job .enc .data with opl := none }.st = .busy ∧ (job .enc .ended).unreachable = true ∧
    (job .ser .data [1#32, 2#32]).unreachable = false := by decide

theorem not_discarding_reset : ¬ State.reset.discarding := by
  simp [State.discarding, State.reset]

theorem not_discarding_leader : ¬ (job .enc .leader).discarding := by
  simp [State.discarding, State.reset, job]

/-- For the statements about a step that is no ISSUE and no RESET: from a state that is not BUSY, from one that is, and from ERROR. -/
theorem witness_KeepingSteps :
    (nextOf (step State.reset)).isSome = true ∧ (nextOf (step (job .enc .leader))).isSome = true ∧
    (nextOf (step { State.reset with st := .error, err := .tooLong })).isSome = true ∧
    ¬ State.reset.discarding ∧ ¬ (job .enc .leader).discarding ∧
    ¬ { State.reset with st := .error, err := .tooLong }.discarding :=
  ⟨by decide, by decide, by decide, not_discarding_reset, not_discarding_leader, by simp [State.discarding, State.reset]⟩

theorem witness_StepKeepsTheInvariant : (job .enc .leader).Inv ∧ (nextOf (step (job .enc .leader))).isSome = true :=
  ⟨leader_inv, by decide⟩

theorem witness_IssueAnswers :
    (nextOf (exec (.issue 2#32 [0xFF#32]) State.reset)).map (·.st) = some .busy ∧
    (nextOf (exec (.issue 2#32 [0x100#32]) State.reset)).map (·.st) = some .error := by decide

theorem witness_SequencerForward :
    (nextOf (blockStep (job .enc .leader))).isSome = true ∧ (nextOf (blockStep (job .ser .data [1#32, 2#32]))).isSome = true := by
  decide

theorem witness_Encode :
    0 < [0x80#8].length ∧ 7 ≤ 7 ∧ 0 < (encodePairs []).length ∧ 8 < (encodePairs [0x80#8]).length := by decide

theorem witness_Serialize :
    [1#32].length % 2 = 1 ∧ [1#32, 2#32].length % 2 = 0 ∧ 2 * 0 + 1 < [1#32, 2#32].length ∧
    serialize [1#32, 2#32] = .ok [1#8, 0#8, 0#8, 0#8, 2#8, 0#8, 0#8, 0#8, 0xCA#8, 1#8, 0#8, 0#8] ∧
    serialize (encodePulses []) = .ok (encodedBuffer []) ∧ ∃ buf, serialize (encodePulses [0x80#8]) = .ok buf := by
  refine ⟨by decide, by decide, by decide, by decide, by decide, ?_⟩
  exact ⟨_, if_neg (by decide)⟩

theorem witness_Jobs :
    State.reset.st ≠ .busy ∧ decodeOp 2#32 = some .enc ∧ decodeOp 1#32 = some .encser ∧ decodeOp 3#32 = some .ser ∧
    (nextOf (exec (.issue 2#32 []) State.reset)).map (·.st) = some .busy ∧
    (nextOf (exec (.issue 1#32 []) State.reset)).map (·.st) = some .busy ∧
    (nextOf (exec (.issue 3#32 []) State.reset)).map (·.st) = some .busy ∧
    1 ≤ jobSteps .enc 0 ∧ (nextOf (blockRun 1 (job .enc .leader))).isSome = true ∧
    (nextOf (blockRun 2 (job .ser .data))).map (·.st) = some .done := by decide

theorem witness_OutputLists :
    State.reset.Inv ∧ State.reset.st = .idle ∧ (finished .ser [] trailerBytes).Inv ∧ (finished .ser [] trailerBytes).outb ≠ [] ∧
    (finished .ser [] trailerBytes).st = .done :=
  ⟨reset_inv, by decide, done_inv, by decide, by decide⟩

theorem witness_JobEnds : (job .enc .leader).Inv ∧ (job .enc .leader).st = .busy := ⟨leader_inv, by decide⟩

theorem witness_IdleBlock : State.reset.st ≠ .busy ∧ State.reset.program = [] := by decide

theorem witness_Pseudo :
    (∃ n ∈ [2 ^ 32], 2 ^ 32 ≤ n) ∧ (∀ n ∈ [2 ^ 32 - 1], n < 2 ^ 32) ∧ (∃ bs, hexDecode .both ['8', '0'] = .ok bs) ∧
    (∃ f, hexDecode .both ['G', '1'] = .error f) ∧
    ((AsmCmd.named .ser).word = some 3#32 ∧ (AsmCmd.literal 5).word = some 5#32 ∧ (AsmCmd.literal (2 ^ 32)).word = none) ∧
    programLines [['w', 'a', 'i', 't']] = some [.wait] ∧
    (tokens ['i', 's', 's', 'u', 'e', ' ', '4', '2', '9', '4', '9', '6', '7', '2', '9', '6', ',', '[', ']'] none []).bind lineOf =
      some (.issue (.literal (2 ^ 32)) []) := by
  refine ⟨by decide, by decide, ⟨[0x80#8], by decide⟩, ⟨_, rfl⟩, by decide, by decide, by decide⟩

theorem witness_Transmit :
    (∃ f, hexDecode .both ['A', 'B', 'C'] = .error f) ∧
    (hexDecode .both ['0', '0', '0', '0'] = .ok [0#8, 0#8] ∧ encodePath 1 [0#8, 0#8] = .error .tooLong) ∧
    (∃ buf, encodePath 1 [0#8] = .ok buf) := by
  refine ⟨⟨_, rfl⟩, by decide, ⟨_, rfl⟩⟩

/-- Answers of every course of a transmission, a stalled one among them. -/
theorem witness_Device :
    (DeviceResults.mk (.failed []) .succeeded .succeeded .succeeded).opening = .failed [] ∧
    (DeviceResults.mk .succeeded .succeeded .succeeded (.failed [])).writing = .failed [] ∧
    DeviceOp.write [1#8] ∈
      (deviceSequence ⟨.succeeded, .succeeded, .succeeded, .succeeded⟩ { devicePath := [] } [1#8]).ops ∧
    (deviceSequence ⟨.succeeded, .succeeded, .succeeded, .succeeded⟩ { devicePath := [] } [1#8]).outcome ≠ .stalled ∧
    (deviceSequence ⟨.succeeded, .succeeded, .stalled, .succeeded⟩ { devicePath := [] } [1#8]).outcome = .stalled := by decide

theorem witness_CompleteBuffer :
    State.reset.st ≠ .busy ∧ hexDecode .both ['8', '0'] = .ok [0x80#8] ∧ [0x80#8].length ≤ Config.maxItems := by
  refine ⟨by decide, by decide, ?_⟩
  simp [Config.maxItems]

end Sys2Proof.Tests.Slice0
end

section
/-!
PROOFS. The statements about the state (10_state.md): reset values, OUTLEN, OPL, the output lists, and the independence of a job from
what went before it.
-/

namespace Sys2Proof.Machine

/-! ### What ISSUE and RESET answer -/

theorem exec_issue (c : Word) (p : List Word) (s : State) :
    exec (.issue c p) s = .next (issueAction Config.maxItems c p s) := rfl

theorem exec_reset (s : State) : exec .reset s = .next s.resetBlock.retire := rfl

theorem sameBlock_reset (s : State) : sameBlock s.resetBlock.retire State.reset := by
  simp [sameBlock, State.reset]

/-- Every variable of the block is written by an ISSUE that runs, from its word and payload alone (R41). -/
theorem sameBlock_issueTransition (m : Nat) (c : Word) (p : List Word) (s s' : State) :
    sameBlock (issueTransition m c p s) (issueTransition m c p s') := by
  unfold issueTransition
  cases decodeOp c with
  | none => simp [sameBlock]
  | some op =>
    dsimp only
    cases payloadError m op p <;> simp [sameBlock]

/-- The operation an ISSUE that runs leaves latched, by how it ends (R28). -/
theorem issueAction_opl {m : Nat} {c : Word} {p : List Word} {s : State} (hs : s.st ≠ .busy) :
    ((issueAction m c p s).st = .error ∧ (issueAction m c p s).opl = none) ∨
    ((issueAction m c p s).st = .busy ∧ ∃ op, decodeOp c = some op ∧ (issueAction m c p s).opl = some op) := by
  obtain ⟨hb, -⟩ | ⟨-, e, -, -, ht⟩ | ⟨-, op, rfl, -, ht⟩ := issueAction_cases m c p s
  · exact absurd hb hs
  · left
    simp [ht]
  · right
    simp [ht]

/-! ### The block step by the selected symbol -/

/-- The sequencer selects no symbol, a pair, or the trailer. -/
theorem selected_none_or_pair_or_trailer (s : State) :
    s.selected = none ∨ (∃ p q, s.selectedPair = some (p, q)) ∨ s.selected = some .trailer := by
  cases hs : s.selected with
  | none => exact .inl rfl
  | some i =>
    obtain ⟨-, ⟨rfl, -⟩ | ⟨rfl, -⟩ | ⟨p, q, -, rfl, -⟩ | ⟨rfl, -⟩⟩ := selected_cases hs
    · simp [State.selectedPair, hs]
    · obtain ⟨-, hd⟩ | ⟨-, hd⟩ := decodeBit_cases s.selectedBit <;> simp [State.selectedPair, hs, hd]
    · simp [State.selectedPair, hs]
    · simp

theorem blockStep_of_none {s : State} (h : s.selected = none) : blockStep s = bookkeepingStep s := by
  simp [blockStep, h]

/-- Where a pair is selected, the block step emits it and moves past it, whichever symbol the pair is. -/
theorem blockStep_of_pair {s : State} {p q : Dur} (h : s.selectedPair = some (p, q)) :
    blockStep s = .next (s.emit p q).advance := by
  have hpair := h
  unfold State.selectedPair at h
  split at h <;> cases h <;> rename_i hs
  · simp [blockStep, hs, exec, execLeader]
  · simp [blockStep, hs, exec, execBit0]
  · simp [blockStep, hs, exec, execBit1]
  · have ho : s.opl ≠ some .enc := by
      obtain ⟨-, ⟨hi, -⟩ | ⟨hi, -⟩ | ⟨-, -, -, -, -, ho, -⟩ | ⟨hi, -⟩⟩ := selected_cases hs
      · cases hi
      · obtain ⟨-, hd⟩ | ⟨-, hd⟩ := decodeBit_cases s.selectedBit <;> cases hi.trans hd
      · simp [ho]
      · cases hi
    simp [blockStep, hs, exec, execRecord, ho, hpair, emit_of_bytes]

theorem blockStep_of_trailer {s : State} (h : s.selected = some .trailer) :
    blockStep s = .next { s with outb := s.outb ++ trailerBytes, phase := .ended, st := .done } := by
  simp [blockStep, h, exec, execTrailer]

/-- CMD, CODE and OPL are not the block's to write (R37). -/
theorem blockStep_keeps_registers {s t : State} (h : blockStep s = .next t) :
    t.cmd = s.cmd ∧ t.err = s.err ∧ t.opl = s.opl := by
  obtain ⟨-, ⟨-, -, rfl⟩ | ⟨-, -, -, rfl⟩ | ⟨w, rest, -, -, -, -, rfl⟩ | ⟨-, -, -, -, rfl⟩ | ⟨-, -, -, -, rfl⟩ |
    ⟨-, -, -, rfl⟩ | ⟨p, q, rest, -, -, -, rfl⟩ | ⟨-, -, rfl⟩⟩ := blockStep_cases h <;> simp

/-! ### The block does not read the host's side -/

/-- The block of `s` beside the host and the interleaving of `h`. -/
def State.withHost (s h : State) : State :=
  { s with program := h.program, responses := h.responses, choices := h.choices, turn := h.turn }

theorem sameBlock_withHost (s h : State) : sameBlock s (s.withHost h) := by
  simp [sameBlock, State.withHost]

/-- Two states with the same block differ in their host's side only. -/
theorem eq_withHost_of_sameBlock {s s' : State} (h : sameBlock s s') : s' = s.withHost s' := by
  obtain ⟨hcmd, hst, herr, hopl, hsrc, hphase, hshreg, hleft, houtd, houtb⟩ := h
  simp [State.withHost, hcmd, hst, herr, hopl, hsrc, hphase, hshreg, hleft, houtd, houtb]

@[simp] theorem selected_withHost (s h : State) : (s.withHost h).selected = s.selected := rfl

@[simp] theorem selectedPair_withHost (s h : State) : (s.withHost h).selectedPair = s.selectedPair := rfl

@[simp] theorem withHost_st (s h : State) : (s.withHost h).st = s.st := rfl

@[simp] theorem withHost_src (s h : State) : (s.withHost h).src = s.src := rfl

@[simp] theorem withHost_opl (s h : State) : (s.withHost h).opl = s.opl := rfl

@[simp] theorem withHost_phase (s h : State) : (s.withHost h).phase = s.phase := rfl

theorem emit_withHost (s h : State) (p q : Dur) : (s.withHost h).emit p q = (s.emit p q).withHost h := by
  by_cases ho : s.opl = some .enc
  · rw [emit_of_enc p q ho, emit_of_enc (s := s.withHost h) p q ho]
    rfl
  · rw [emit_of_bytes p q ho, emit_of_bytes (s := s.withHost h) p q ho]
    rfl

theorem advance_withHost (s h : State) : (s.withHost h).advance = s.advance.withHost h := by
  simp only [State.advance, withHost_phase, withHost_opl]
  split <;> rfl

theorem exhaust_withHost (s h : State) : (s.withHost h).exhaust = s.exhaust.withHost h := by
  simp only [State.exhaust, withHost_opl]
  split <;> rfl

theorem load_withHost (s h : State) (w : Word) (rest : List Word) :
    (s.withHost h).load w rest = (s.load w rest).withHost h := rfl

theorem bookkeepingStep_withHost {s t : State} (h : State) (hs : bookkeepingStep s = .next t) :
    bookkeepingStep (s.withHost h) = .next (t.withHost h) := by
  unfold bookkeepingStep at hs
  split at hs <;> cases hs <;> rename_i hst hphase hopl hsrc
  · simp [bookkeepingStep, hst, hphase, hopl, hsrc, load_withHost]
  · simp [bookkeepingStep, hst, hphase, hopl, hsrc, load_withHost]
  · simp [bookkeepingStep, hst, hphase, hopl, hsrc, exhaust_withHost]

/-- A block step is the same beside any other host (R41, R145). -/
theorem blockStep_withHost {s t : State} (h : State) (hs : blockStep s = .next t) :
    blockStep (s.withHost h) = .next (t.withHost h) := by
  obtain hsel | ⟨p, q, hsel⟩ | hsel := selected_none_or_pair_or_trailer s
  · rw [blockStep_of_none hsel] at hs
    rw [blockStep_of_none (by simpa using hsel), bookkeepingStep_withHost h hs]
  · rw [blockStep_of_pair hsel] at hs
    cases hs
    rw [blockStep_of_pair (by simpa using hsel), emit_withHost, advance_withHost]
  · rw [blockStep_of_trailer hsel] at hs
    cases hs
    rw [blockStep_of_trailer (by simpa using hsel)]
    rfl

theorem blockRun_withHost (h : State) {k : Nat} {s t : State} (hs : blockRun k s = .next t) :
    blockRun k (s.withHost h) = .next (t.withHost h) := by
  induction k generalizing s with
  | zero =>
    cases hs
    rfl
  | succ k ih =>
    cases hb : blockStep s with
    | next v =>
      simp only [blockRun, hb] at hs
      simp only [blockRun, blockStep_withHost h hb]
      exact ih hs
    | fault f => simp [blockRun, hb] at hs
    | refused r => simp [blockRun, hb] at hs

/-! ### OUTLEN and the output lists -/

theorem outCount_of_enc {s : State} (h : s.opl = some .enc) : s.outCount = s.outd.length := by
  simp [State.outCount, h]

theorem outCount_of_bytes {s : State} (h : s.opl ≠ some .enc) : s.outCount = s.outb.length := by
  unfold State.outCount
  split
  · contradiction
  · rfl

/-- What is emitted is no longer than what the job ends with. -/
theorem outd_length_le_finalOutd (s : State) : s.outd.length ≤ s.finalOutd.length := by
  unfold State.finalOutd
  split <;> simp

theorem outb_length_le_finalOutb (s : State) : s.outb.length ≤ s.finalOutb.length := by
  unfold State.finalOutb
  split
  · simp only [List.length_append]
    omega
  · exact le_rfl

/-- MAX_ITEMS bounds the output below 2 ^ 32 items (R9, R27). -/
theorem outCount_lt_of_inv {s : State} (h : s.Inv) : s.outCount < 2 ^ 32 := by
  obtain ⟨hd, hb⟩ := h.bounded
  have hmax := maxItems_bounds.2
  by_cases ho : s.opl = some .enc
  · have := outd_length_le_finalOutd s
    rw [outCount_of_enc ho]
    omega
  · have := outb_length_le_finalOutb s
    rw [outCount_of_bytes ho]
    omega

theorem outLen_toNat_of_inv {s : State} (h : s.Inv) : s.outLen.toNat = s.outCount :=
  Nat.mod_eq_of_lt (outCount_lt_of_inv h)

/-- In IDLE and in ERROR no job is loaded. -/
theorem cleared_of_statusFits {s : State} (h : s.statusFits) (hst : s.st = .idle ∨ s.st = .error) : s.cleared := by
  unfold State.statusFits at h
  rcases hst with hst | hst <;> rw [hst] at h <;> exact h.1

/-- In DONE the sequencer is at its end. -/
theorem ended_of_statusFits {s : State} (h : s.statusFits) (hst : s.st = .done) :
    s.src = [] ∧ s.phase = .ended ∧ s.bitsLeft = 0 := by
  unfold State.statusFits at h
  rw [hst] at h
  obtain ⟨-, hsrc, hphase, hleft, -⟩ := h
  exact ⟨hsrc, hphase, hleft⟩

/-- Each output list is nonempty only with the operations that write it (R33, R34). -/
theorem opl_of_outd_ne_nil {s : State} (h : s.outputFits) (hne : s.outd ≠ []) : s.opl = some .enc := by
  by_contra ho
  exact hne (h.1 ho)

theorem opl_of_outb_ne_nil {s : State} (h : s.outputFits) (hne : s.outb ≠ []) :
    s.opl = some .encser ∨ s.opl = some .ser := by
  have hempty := h.2
  rcases ho : s.opl with _ | _ | _ | _ <;> simp_all

theorem outputs_empty_of_no_operation {s : State} (h : s.outputFits) (ho : s.opl = none) : s.outd = [] ∧ s.outb = [] :=
  ⟨h.1 (by simp [ho]), h.2 (.inl ho)⟩

theorem outd_or_outb_empty {s : State} (h : s.outputFits) : s.outd = [] ∨ s.outb = [] := by
  by_cases ho : s.opl = some .enc
  · exact .inr (h.2 (.inr ho))
  · exact .inl (h.1 ho)

/-! ### The obligations -/

/-- Settles O18: the values are those of `State.reset`, and RESET copies its block. -/
theorem resetStateHasTheTabledValues : Obligations.ResetStateHasTheTabledValues := by
  unfold Obligations.ResetStateHasTheTabledValues
  refine ⟨rfl, rfl, rfl, rfl, rfl, rfl, rfl, rfl, rfl, rfl, rfl, ?_⟩
  intro s t h
  rw [exec_reset] at h
  cases h
  exact sameBlock_reset s

/-- Settles O12: ISSUE writes the whole block from its operands, and the block steps read the block only. -/
theorem earlierJobsDoNotChangeALaterJob : Obligations.EarlierJobsDoNotChangeALaterJob := by
  unfold Obligations.EarlierJobsDoNotChangeALaterJob
  intro s s' t t' c p hs hs' ht ht'
  rw [exec_issue, issueAction_not_busy hs] at ht
  rw [exec_issue, issueAction_not_busy hs'] at ht'
  have hsame : sameBlock t t' := by
    cases ht
    cases ht'
    exact sameBlock_issueTransition Config.maxItems c p s s'
  refine ⟨hsame, fun k u hu => ⟨u.withHost t', ?_, sameBlock_withHost u t'⟩⟩
  rw [eq_withHost_of_sameBlock hsame]
  exact blockRun_withHost t' hu

/-- Settles O21: the invariant bounds the output of the whole job below 2 ^ 32 items. -/
theorem outlenEqualsTheOutputLength : Obligations.OutlenEqualsTheOutputLength := by
  unfold Obligations.OutlenEqualsTheOutputLength
  refine ⟨fun s h => ⟨fun ho => ?_, fun ho => ?_⟩, rfl⟩
  · rw [outLen_toNat_of_inv h, outCount_of_enc ho]
  · rw [outLen_toNat_of_inv h, outCount_of_bytes ho]

/-- Settles O33: by how an ISSUE ends, and because the block never writes OPL. -/
theorem oplIsLatchedByIssue : Obligations.OplIsLatchedByIssue := by
  unfold Obligations.OplIsLatchedByIssue
  refine ⟨fun s t c p hs ht => ?_, fun s t ht => ?_, fun s t ht hd => ?_, rfl⟩
  · rw [exec_issue] at ht
    cases ht
    obtain ⟨hst, ho⟩ | ⟨hst, op, hc, ho⟩ := issueAction_opl (m := Config.maxItems) (c := c) (p := p) hs
    · simp [hst, ho]
    · simp [hst, ho, hc]
  · rw [exec_reset] at ht
    cases ht
    rfl
  · obtain ⟨-, -, -, ho, -⟩ | ⟨-, hb⟩ := step_keeps_or_blockSteps ht hd
    · exact ho.symm
    · obtain ⟨-, -, ho⟩ := blockStep_keeps_registers hb
      rw [ho, settled_opl]

/-- Settles O47: the clauses of the invariant on the outputs and on ST. -/
theorem outputListsFollowTheStatus : Obligations.OutputListsFollowTheStatus := by
  unfold Obligations.OutputListsFollowTheStatus
  intro s h
  refine ⟨outd_or_outb_empty h.outputs, opl_of_outd_ne_nil h.outputs, opl_of_outb_ne_nil h.outputs, fun hst => ?_,
    ended_of_statusFits h.status⟩
  obtain ⟨ho, hsrc, hphase, -, -⟩ := cleared_of_statusFits h.status hst
  obtain ⟨hd, hb⟩ := outputs_empty_of_no_operation h.outputs ho
  exact ⟨hd, hb, hsrc, hphase⟩

end Sys2Proof.Machine
end

section
/-!
PROOFS. The statements about the memory (20_memory.md): the output lists only grow, until an ISSUE or a RESET empties them.
-/

namespace Sys2Proof.Machine

/-! ### What a block step does to the outputs -/

theorem outd_prefix_emit (s : State) (p q : Dur) : s.outd <+: (s.emit p q).outd := by
  by_cases ho : s.opl = some .enc
  · simp [emit_of_enc p q ho]
  · simp [emit_of_bytes p q ho]

theorem outb_prefix_emit (s : State) (p q : Dur) : s.outb <+: (s.emit p q).outb := by
  by_cases ho : s.opl = some .enc
  · simp [emit_of_enc p q ho]
  · simp [emit_of_bytes p q ho]

/-- A step that emits no symbol leaves both outputs as they are (R147, R149). -/
theorem bookkeepingStep_keeps_outputs {s t : State} (h : bookkeepingStep s = .next t) :
    t.outd = s.outd ∧ t.outb = s.outb := by
  unfold bookkeepingStep at h
  split at h <;> cases h <;> simp

/-- A block step appends to the outputs and takes nothing away (R60). -/
theorem blockStep_extends_outputs {s t : State} (h : blockStep s = .next t) : s.outd <+: t.outd ∧ s.outb <+: t.outb := by
  obtain hsel | ⟨p, q, hsel⟩ | hsel := selected_none_or_pair_or_trailer s
  · rw [blockStep_of_none hsel] at h
    obtain ⟨hd, hb⟩ := bookkeepingStep_keeps_outputs h
    simp [hd, hb]
  · rw [blockStep_of_pair hsel] at h
    cases h
    simpa using ⟨outd_prefix_emit s p q, outb_prefix_emit s p q⟩
  · rw [blockStep_of_trailer hsel] at h
    cases h
    simp

/-! ### What ISSUE does to the outputs -/

/-- An ISSUE that runs empties both outputs, however it ends. -/
theorem issueAction_empties_outputs {m : Nat} {c : Word} {p : List Word} {s : State} (hs : s.st ≠ .busy) :
    (issueAction m c p s).outd = [] ∧ (issueAction m c p s).outb = [] := by
  obtain ⟨hb, -⟩ | ⟨-, e, -, -, ht⟩ | ⟨-, op, -, -, ht⟩ := issueAction_cases m c p s
  · exact absurd hb hs
  · simp [ht]
  · simp [ht]

/-! ### The obligations -/

/-- Settles O51: a step that discards nothing keeps the block or is a block step, which only appends; ISSUE and RESET write both lists
empty. -/
theorem outputPersists : Obligations.OutputPersists := by
  unfold Obligations.OutputPersists
  refine ⟨fun s t ht hd => ?_, fun s t c p hs ht => ?_, fun s t ht => ?_⟩
  · obtain ⟨-, -, -, -, -, -, -, -, houtd, houtb⟩ | ⟨hbusy, hb⟩ := step_keeps_or_blockSteps ht hd
    · simp [houtd, houtb]
    · obtain ⟨houtd, houtb⟩ := blockStep_extends_outputs hb
      rw [settled_outd] at houtd
      rw [settled_outb] at houtb
      exact ⟨houtd, houtb, fun hidle => absurd hbusy hidle⟩
  · rw [exec_issue] at ht
    cases ht
    exact issueAction_empties_outputs hs
  · rw [exec_reset] at ht
    cases ht
    exact ⟨rfl, rfl⟩

end Sys2Proof.Machine
end

section
/-!
PROOFS. The statements about the encoding (30_encoding.md): the command decoder.
-/

namespace Sys2Proof.Machine

/-! ### The words that decode to no operation -/

/-- A two-bit field is 0 or the code of one of the three operations. -/
theorem operationField_cases (v : BitVec 2) : v = 0b00#2 ∨ v = 0b01#2 ∨ v = 0b10#2 ∨ v = 0b11#2 := by
  revert v
  decide

/-- ILLEGAL by the fields of the word: a high bit is set, or the operation's field is 0 (R71, R73). -/
theorem decodeOp_eq_none_iff_fields (c : Word) :
    decodeOp c = none ↔ c.extractLsb' 2 30 ≠ 0#30 ∨ c.extractLsb' 0 2 = 0#2 := by
  unfold decodeOp
  by_cases hhigh : c.extractLsb' 2 30 = 0#30
  · obtain hlow | hlow | hlow | hlow := operationField_cases (c.extractLsb' 0 2) <;> simp [hhigh, hlow]
  · simp [hhigh]

/-- ILLEGAL by the whole word: it is the word of no operation (R73). -/
theorem decodeOp_eq_none_iff_ne_cmdWord (c : Word) : decodeOp c = none ↔ ∀ op, c ≠ cmdWord op := by
  simp only [Option.eq_none_iff_forall_ne_some, ne_eq, decodeOp_eq_some]

/-- A claim about every command word of R72 is a claim about the three of them. -/
theorem forall_ne_cmdWord (c : Word) :
    (∀ op, c ≠ cmdWord op) ↔ c ≠ 0x00000001#32 ∧ c ≠ 0x00000002#32 ∧ c ≠ 0x00000003#32 := by
  constructor
  · intro h
    exact ⟨h .encser, h .enc, h .ser⟩
  · rintro ⟨hencser, henc, hser⟩ (_ | _ | _)
    exacts [hencser, henc, hser]

/-! ### The obligations -/

/-- Settles O2: each operation has one word (`decodeOp_eq_some`), and ILLEGAL is read off the fields and off those three words. -/
theorem commandDecoderIsTotalAndExact : Obligations.CommandDecoderIsTotalAndExact := by
  unfold Obligations.CommandDecoderIsTotalAndExact
  intro c
  exact ⟨decodeOp_eq_none_iff_fields c, decodeOp_eq_some c .encser, decodeOp_eq_some c .enc, decodeOp_eq_some c .ser,
    (decodeOp_eq_none_iff_ne_cmdWord c).trans (forall_ne_cmdWord c)⟩

end Sys2Proof.Machine
end

section
/-!
PROOFS. The statements about the pulse encoder (40_pulse_encoder.md): Encode is its pair view flattened, and the pair view has one block
of eight pairs per byte.
-/

namespace Sys2Proof.Machine

/-! ### A list built from blocks of one length -/

section Blocks
variable {α β : Type} {f : α → List β} {c : Nat}

theorem length_flatMap_of_blocks (hf : ∀ a, (f a).length = c) (l : List α) : (l.flatMap f).length = c * l.length := by
  simp [List.length_flatMap, hf, Nat.mul_comm]

/-- Entry `i` of block `j` stands `c * j + i` from the start. -/
theorem getElem?_flatMap_of_blocks (hf : ∀ a, (f a).length = c) {l : List α} {i j : Nat} (hj : j < l.length) (hi : i < c) :
    (l.flatMap f)[c * j + i]? = (f l[j])[i]? := by
  induction l generalizing j with
  | nil => exact absurd hj (Nat.not_lt_zero j)
  | cons a l ih =>
    rw [List.flatMap_cons]
    cases j with
    | zero => simp [List.getElem?_append_left, hf, hi]
    | succ j =>
      have hindex : c * (j + 1) + i = c * j + i + c := by ring
      rw [hindex, List.getElem?_append_right (by simp [hf]), hf, Nat.add_sub_cancel]
      exact ih (Nat.lt_of_succ_lt_succ hj)

end Blocks

/-! ### The pairs of a byte -/

@[simp] theorem bitPairs_length (b : Byte) (n : Nat) : (bitPairs b n).length = n := by
  induction n with
  | zero => rfl
  | succ n ih => simp [bitPairs, ih]

/-- The highest bit goes out first (R104). -/
theorem getElem?_bitPairs (b : Byte) {n i : Nat} (hi : i < n) :
    (bitPairs b n)[n - 1 - i]? = some (bitPulse, bitSpace (b.getLsbD i)) := by
  induction n with
  | zero => exact absurd hi (Nat.not_lt_zero i)
  | succ n ih =>
    obtain rfl | hlt := Nat.eq_or_lt_of_le (Nat.le_of_lt_succ hi)
    · simp [bitPairs]
    · rw [show n + 1 - 1 - i = n - 1 - i + 1 by omega, bitPairs, List.getElem?_cons_succ]
      exact ih hlt

/-! ### Encode and its pair view -/

theorem encodePairs_eq_bitPairs (bs : List Byte) :
    encodePairs bs = (leaderPulse, leaderSpace) :: bs.flatMap fun b => bitPairs b 8 := rfl

theorem encodePairs_length (bs : List Byte) : (encodePairs bs).length = 1 + 8 * bs.length := by
  rw [encodePairs_eq_bitPairs, List.length_cons, length_flatMap_of_blocks fun b => bitPairs_length b 8, Nat.add_comm]

/-- The pair of bit `i` of byte `j` (R107). -/
theorem getElem?_encodePairs_bit {bs : List Byte} {j i : Nat} (hj : j < bs.length) (hi : i ≤ 7) :
    (encodePairs bs)[1 + 8 * j + (7 - i)]? = some (bitPulse, bitSpace (bs[j].getLsbD i)) := by
  rw [encodePairs_eq_bitPairs, show 1 + 8 * j + (7 - i) = 8 * j + (7 - i) + 1 by omega, List.getElem?_cons_succ,
    getElem?_flatMap_of_blocks (fun b => bitPairs_length b 8) hj (by omega)]
  exact getElem?_bitPairs bs[j] (Nat.lt_succ_of_le hi)

/-- Encode is its pairs, each written out as pulse and space (R107). -/
theorem encodePulses_eq_flatMap_encodePairs (bs : List Byte) :
    encodePulses bs = (encodePairs bs).flatMap fun q => [q.1, q.2] := by
  rw [encodePairs_eq_bitPairs, List.flatMap_cons, List.flatMap_assoc]
  rfl

theorem encodePulses_length (bs : List Byte) : (encodePulses bs).length = 2 + 16 * bs.length := by
  rw [encodePulses_eq_flatMap_encodePairs, length_flatMap_of_blocks (c := 2) fun _ => rfl, encodePairs_length]
  omega

/-- Entries `2k` and `2k + 1` of Encode are pair `k`. -/
theorem getElem?_encodePulses_of_pair {bs : List Byte} {k : Nat} {p q : Dur} (h : (encodePairs bs)[k]? = some (p, q)) :
    (encodePulses bs)[2 * k]? = some p ∧ (encodePulses bs)[2 * k + 1]? = some q := by
  obtain ⟨hk, hpair⟩ := List.getElem?_eq_some_iff.mp h
  have hentry : ∀ i < 2, (encodePulses bs)[2 * k + i]? = [p, q][i]? := fun i hi => by
    rw [encodePulses_eq_flatMap_encodePairs, getElem?_flatMap_of_blocks (c := 2) (fun _ => rfl) hk hi, hpair]
  exact ⟨hentry 0 (by decide), hentry 1 (by decide)⟩

/-! ### The obligations -/

/-- Settles O36: the entries of bit `i` of byte `j` are those of its pair. -/
theorem encodePositions : Obligations.EncodePositions := by
  unfold Obligations.EncodePositions
  refine fun bs => ⟨rfl, rfl, fun j i hj hi => ?_⟩
  rw [show 2 + 16 * j + 2 * (7 - i) = 2 * (1 + 8 * j + (7 - i)) by omega]
  exact getElem?_encodePulses_of_pair (getElem?_encodePairs_bit hj hi)

/-- Settles O37: the pairs are the source's by definition, and Encode writes them out one after the other. -/
theorem encodePairView : Obligations.EncodePairView := by
  unfold Obligations.EncodePairView
  exact fun bs => ⟨rfl, encodePairs_length bs, fun k hk =>
    getElem?_encodePulses_of_pair (List.getElem?_eq_getElem hk)⟩

/-- Settles O35: two entries for each pair of the pair view. -/
theorem encodeLength : Obligations.EncodeLength := by
  unfold Obligations.EncodeLength
  intro bs
  have hlen := encodePulses_length bs
  exact ⟨hlen, by omega⟩

end Sys2Proof.Machine
end

section
/-!
PROOFS. The statements about the buffer serializer (41_buffer_serializer.md): a serialized buffer is one record of eight bytes for each
pair of its input, then the trailer.
-/

namespace Sys2Proof.Machine

/-! ### The place of a block in a list built from blocks of one length -/

section Blocks
variable {α β : Type} {f : α → List β} {c : Nat}

/-- Block `j` is what stands between `c * j` and `c * (j + 1)`, whatever follows the last block. -/
theorem take_drop_flatMap_of_blocks (hf : ∀ a, (f a).length = c) (rest : List β) {l : List α} {j : Nat} (hj : j < l.length) :
    ((l.flatMap f ++ rest).drop (c * j)).take c = f l[j] := by
  induction l generalizing j with
  | nil => exact absurd hj (Nat.not_lt_zero j)
  | cons a l ih =>
    rw [List.flatMap_cons, List.append_assoc]
    cases j with
    | zero => exact List.take_left' (hf a)
    | succ j =>
      rw [Nat.mul_succ, Nat.add_comm, ← List.drop_drop, List.drop_left' (hf a)]
      exact ih (Nat.lt_of_succ_lt_succ hj)

theorem drop_flatMap_of_blocks (hf : ∀ a, (f a).length = c) (l : List α) (rest : List β) :
    (l.flatMap f ++ rest).drop (c * l.length) = rest :=
  List.drop_left' (length_flatMap_of_blocks hf l)

end Blocks

/-! ### The pairs of a sequence -/

/-- Pair `k` is made of entries `2k` and `2k + 1` (R124). -/
theorem pairsOf_eq_map_range (ds : List Dur) :
    pairsOf ds = (List.range (ds.length / 2)).map fun k => (ds.getD (2 * k) 0, ds.getD (2 * k + 1) 0) := by
  induction ds using pairsOf.induct with
  | case1 p s rest ih =>
    have hlen : (p :: s :: rest).length / 2 = rest.length / 2 + 1 := Nat.add_div_right rest.length Nat.two_pos
    rw [hlen, List.range_succ_eq_map, pairsOf, ih]
    simp [Nat.mul_succ]
  | case2 ds hshort =>
    have hlen : ds.length / 2 = 0 := by
      match ds with
      | [] => rfl
      | [_] => exact Nat.div_eq_of_lt Nat.one_lt_two
      | p :: s :: rest => exact absurd rfl (hshort p s rest)
    rw [hlen, pairsOf]
    · rfl
    · exact hshort

@[simp] theorem pairsOf_length (ds : List Dur) : (pairsOf ds).length = ds.length / 2 := by
  simp [pairsOf_eq_map_range]

theorem getElem?_pairsOf {ds : List Dur} {k : Nat} (hk : 2 * k + 1 < ds.length) :
    (pairsOf ds)[k]? = some (ds[2 * k], ds[2 * k + 1]) := by
  have hpair : k < ds.length / 2 := by omega
  simp [pairsOf_eq_map_range, hpair, hk, Nat.lt_of_succ_lt hk]

/-- Writing pairs out as their entries loses none of them. -/
theorem pairsOf_flatMap_entries (qs : List (Dur × Dur)) : pairsOf (qs.flatMap fun q => [q.1, q.2]) = qs := by
  induction qs with
  | nil => rfl
  | cons q qs ih => exact congrArg (q :: ·) ih

theorem pairsOf_encodePulses (bs : List Byte) : pairsOf (encodePulses bs) = encodePairs bs := by
  rw [encodePulses_eq_flatMap_encodePairs, pairsOf_flatMap_entries]

/-! ### The buffer of a list of pairs -/

/-- The record of a pair (R121). -/
def pairRecord (q : Dur × Dur) : List Byte := recordBytes q.1 q.2

theorem pairRecord_length (q : Dur × Dur) : (pairRecord q).length = 8 := rfl

/-- The records of `qs` in order, then the trailer: the buffer of `serialize` and of `encodedBuffer`, by their pairs. -/
def recordBuffer (qs : List (Dur × Dur)) : List Byte := qs.flatMap pairRecord ++ trailerBytes

theorem encodedBuffer_eq_recordBuffer (bs : List Byte) : encodedBuffer bs = recordBuffer (encodePairs bs) := rfl

theorem recordBuffer_length (qs : List (Dur × Dur)) : (recordBuffer qs).length = 8 * qs.length + 4 := by
  rw [recordBuffer, List.length_append, length_flatMap_of_blocks pairRecord_length]
  rfl

/-- Record `k` stands at offset `8k` (R54). -/
theorem take_drop_recordBuffer {qs : List (Dur × Dur)} {k : Nat} {p q : Dur} (h : qs[k]? = some (p, q)) :
    ((recordBuffer qs).drop (8 * k)).take 8 = recordBytes p q := by
  obtain ⟨hk, hpair⟩ := List.getElem?_eq_some_iff.mp h
  rw [recordBuffer, take_drop_flatMap_of_blocks pairRecord_length trailerBytes hk, hpair, pairRecord]

theorem drop_recordBuffer (qs : List (Dur × Dur)) : (recordBuffer qs).drop (8 * qs.length) = trailerBytes :=
  drop_flatMap_of_blocks pairRecord_length qs trailerBytes

/-! ### Serialize -/

theorem serialize_of_odd {ds : List Dur} (h : ds.length % 2 = 1) : serialize ds = .error .oddLength := if_pos h

theorem serialize_of_even {ds : List Dur} (h : ds.length % 2 = 0) : serialize ds = .ok (recordBuffer (pairsOf ds)) :=
  if_neg (by omega)

/-- Serialize gives a buffer for even lengths only, and gives the records of the pairs. -/
theorem serialize_eq_ok {ds : List Dur} {buf : List Byte} (h : serialize ds = .ok buf) :
    ds.length % 2 = 0 ∧ buf = recordBuffer (pairsOf ds) := by
  obtain heven | hodd := Nat.mod_two_eq_zero_or_one ds.length
  · rw [serialize_of_even heven] at h
    cases h
    exact ⟨heven, rfl⟩
  · rw [serialize_of_odd hodd] at h
    cases h

/-- The composition of ENCSER never fails (R127). -/
theorem serialize_encodePulses (bs : List Byte) : serialize (encodePulses bs) = .ok (encodedBuffer bs) := by
  have heven : (encodePulses bs).length % 2 = 0 := by
    rw [encodePulses_length]
    omega
  rw [serialize_of_even heven, pairsOf_encodePulses, encodedBuffer_eq_recordBuffer]

theorem encodedBuffer_length (bs : List Byte) : (encodedBuffer bs).length = 64 * bs.length + 12 := by
  rw [encodedBuffer_eq_recordBuffer, recordBuffer_length, encodePairs_length]
  omega

/-! ### The obligations -/

/-- Settles O38: the pairs are listed by index (`pairsOf_eq_map_range`), and each takes one record. -/
theorem serializeIsThePairsThenTheTrailer : Obligations.SerializeIsThePairsThenTheTrailer := by
  unfold Obligations.SerializeIsThePairsThenTheTrailer
  refine fun ds => ⟨serialize_of_odd, fun heven => ?_, fun buf hbuf => ?_⟩
  · rw [serialize_of_even heven, recordBuffer, pairsOf_eq_map_range, List.flatMap_map]
    rfl
  · obtain ⟨heven, rfl⟩ := serialize_eq_ok hbuf
    rw [recordBuffer_length, pairsOf_length]
    omega

/-- Settles O39: record `k` is that of pair `k`, and what follows the last record is the trailer. -/
theorem serializeLayout : Obligations.SerializeLayout := by
  unfold Obligations.SerializeLayout
  intro ds buf hbuf
  obtain ⟨-, rfl⟩ := serialize_eq_ok hbuf
  refine ⟨fun k hk => take_drop_recordBuffer (getElem?_pairsOf hk), ?_⟩
  rw [← pairsOf_length]
  exact drop_recordBuffer (pairsOf ds)

/-- Settles O41: the buffer is `encodedBuffer`, whose first record is the leader's. -/
theorem serializeOfEncode : Obligations.SerializeOfEncode := by
  unfold Obligations.SerializeOfEncode
  refine fun bs => ⟨encodedBuffer bs, serialize_encodePulses bs, encodedBuffer_length bs, ?_, ?_⟩
  · have hleader : (encodePairs bs)[0]? = some (leaderPulse, leaderSpace) := rfl
    exact take_drop_recordBuffer hleader
  · rw [encodedBuffer_eq_recordBuffer, recordBuffer_length, Nat.add_sub_cancel]
    exact drop_recordBuffer (encodePairs bs)

/-- Settles O42: the record of bit `i` of byte `j` is that of its pair, the leader's record standing before all of them. -/
theorem bitRecordPositions : Obligations.BitRecordPositions := by
  unfold Obligations.BitRecordPositions
  intro bs buf hbuf j i hj hi
  rw [serialize_encodePulses] at hbuf
  cases hbuf
  rw [show 8 + 64 * j + 8 * (7 - i) = 8 * (1 + 8 * j + (7 - i)) by omega, encodedBuffer_eq_recordBuffer,
    take_drop_recordBuffer (getElem?_encodePairs_bit hj hi)]
  cases bs[j].getLsbD i <;> rfl

end Sys2Proof.Machine
end

section
/-!
PROOFS. The statements about job control (42_job_control.md): the two reads, the block step by the sequencer's position, and the course of
an accepted job. Each block step moves pairs from what the job has still to emit to its output and takes one of the steps it has left.
-/

namespace Sys2Proof.Machine

/-! ### The reads -/

/-- A read that returns a value is no action on the block. -/
theorem sameBlock_respond_retire (s : State) (r : Response) : sameBlock s (s.retire.respond r) := by
  simp [sameBlock]

theorem exec_rdreg_of_some {s : State} {n : Nat} {v : Word} (h : s.readReg n = some v) :
    exec (.rdreg n) s = .next (s.retire.respond (.reg n v)) := by
  simp [exec, execRdreg, h]

theorem exec_rdreg_of_none {s : State} {n : Nat} (h : s.readReg n = none) :
    exec (.rdreg n) s = .refused (.noSuchRegister n) := by
  simp [exec, execRdreg, h]

/-- The register map of R22 has the numbers 0 to 3. -/
theorem exists_readReg (s : State) : ∀ n < 4, ∃ v, s.readReg n = some v
  | 0, _ => ⟨_, rfl⟩
  | 1, _ => ⟨_, rfl⟩
  | 2, _ => ⟨_, rfl⟩
  | 3, _ => ⟨_, rfl⟩

theorem readReg_eq_none (s : State) : ∀ n, 4 ≤ n → s.readReg n = none
  | 0, h | 1, h | 2, h | 3, h => absurd h (by decide)
  | _ + 4, _ => rfl

theorem exec_rdout_of_some {s : State} {i : Nat} {r : Response} (h : s.outRead i = some r) :
    exec (.rdout i) s = .next (s.retire.respond r) := by
  simp [exec, execRdout, h]

theorem exec_rdout_of_none {s : State} {i : Nat} (h : s.outRead i = none) :
    exec (.rdout i) s = .refused (.noSuchOutput i) := by
  simp [exec, execRdout, h]

theorem outRead_of_enc {s : State} (i : Nat) (ho : s.opl = some .enc) : s.outRead i = s.outd[i]?.map (.duration i) := by
  simp [State.outRead, ho]

theorem outRead_of_bytes {s : State} (i : Nat) (ho : s.opl = some .encser ∨ s.opl = some .ser) :
    s.outRead i = s.outb[i]?.map (.byte i) := by
  rcases ho with ho | ho <;> simp [State.outRead, ho]

theorem outRead_of_no_operation {s : State} (i : Nat) (ho : s.opl = none) : s.outRead i = none := by
  simp [State.outRead, ho]

/-! ### The block step by the sequencer's position -/

theorem selectedPair_of_bit {s : State} (hst : s.st = .busy) (hphase : s.phase = .data)
    (ho : s.opl = some .enc ∨ s.opl = some .encser) (hleft : s.bitsLeft ≠ 0) :
    s.selectedPair = some (bitPulse, bitSpace s.selectedBit) := by
  have hsel : s.selected = some (decodeBit s.selectedBit) := by
    rcases ho with ho | ho <;> simp [State.selected, hst, hphase, ho, hleft]
  obtain ⟨hbit, hd⟩ | ⟨hbit, hd⟩ := decodeBit_cases s.selectedBit <;> rw [hd] at hsel <;>
    simp [State.selectedPair, hsel, hbit, bitSpace]

theorem blockStep_at_bit {s : State} (hst : s.st = .busy) (hphase : s.phase = .data)
    (ho : s.opl = some .enc ∨ s.opl = some .encser) (hleft : s.bitsLeft ≠ 0) :
    blockStep s =
      .next { s.emit bitPulse (bitSpace s.selectedBit) with bitsLeft := bitsDown s.bitsLeft } := by
  rw [blockStep_of_pair (selectedPair_of_bit hst hphase ho hleft), advance_of_bit (by simpa using hphase) (by simpa using ho),
    emit_bitsLeft]

theorem blockStep_at_leader {s : State} (hst : s.st = .busy) (hphase : s.phase = .leader)
    (ho : s.opl = some .enc ∨ s.opl = some .encser) :
    blockStep s = .next { s.emit leaderPulse leaderSpace with phase := .data } := by
  have hpair : s.selectedPair = some (leaderPulse, leaderSpace) := by
    rcases ho with ho | ho <;> simp [State.selectedPair, State.selected, hst, hphase, ho]
  rw [blockStep_of_pair hpair, advance_of_leader (by simpa using hphase)]

theorem blockStep_at_record {s : State} {p q : Word} {rest : List Word} (hst : s.st = .busy) (hphase : s.phase = .data)
    (ho : s.opl = some .ser) (hsrc : s.src = p :: q :: rest) :
    blockStep s = .next { s.emit p q with src := rest } := by
  have hpair : s.selectedPair = some (p, q) := by simp [State.selectedPair, State.selected, hst, hphase, ho, hsrc]
  rw [blockStep_of_pair hpair, advance_of_record (by simpa using hphase) (by simpa using ho), emit_src, hsrc]
  rfl

theorem blockStep_at_trailer {s : State} (hst : s.st = .busy) (hphase : s.phase = .trailer)
    (ho : s.opl = some .encser ∨ s.opl = some .ser) :
    blockStep s = .next { s with outb := s.outb ++ trailerBytes, phase := .ended, st := .done } := by
  refine blockStep_of_trailer ?_
  rcases ho with ho | ho <;> simp [State.selected, hst, hphase, ho]

/-- In the data phase of ENC and ENCSER no symbol is selected exactly when no bit is left. -/
theorem selected_eq_none_iff_no_bit {s : State} (hst : s.st = .busy) (hphase : s.phase = .data)
    (ho : s.opl = some .enc ∨ s.opl = some .encser) : s.selected = none ↔ s.bitsLeft = 0 := by
  rcases ho with ho | ho <;> simp [State.selected, hst, hphase, ho]

theorem blockStep_at_load {s : State} {w : Word} {rest : List Word} (hst : s.st = .busy) (hphase : s.phase = .data)
    (ho : s.opl = some .enc ∨ s.opl = some .encser) (hleft : s.bitsLeft = 0) (hsrc : s.src = w :: rest) :
    blockStep s = .next (s.load w rest) := by
  rw [blockStep_of_none ((selected_eq_none_iff_no_bit hst hphase ho).2 hleft)]
  rcases ho with ho | ho <;> simp [bookkeepingStep, hst, hphase, ho, hsrc]

/-- The payload-exhausted step, of every operation (R147, R149). -/
theorem blockStep_at_exhausted {s : State} {op : Op} (hst : s.st = .busy) (hphase : s.phase = .data) (ho : s.opl = some op)
    (hleft : op ≠ .ser → s.bitsLeft = 0) (hsrc : s.src = []) : blockStep s = .next s.exhaust := by
  have hsel : s.selected = none := by
    cases op <;> simp [State.selected, hst, hphase, ho, hsrc] at hleft ⊢ <;> exact hleft
  rw [blockStep_of_none hsel]
  simp [bookkeepingStep, hst, hphase, ho, hsrc]

theorem exhaust_of_enc {s : State} (ho : s.opl = some .enc) : s.exhaust = { s with phase := .ended, st := .done } := by
  simp [State.exhaust, ho]

theorem exhaust_of_bytes {s : State} (ho : s.opl ≠ some .enc) : s.exhaust = { s with phase := .trailer } := by
  unfold State.exhaust
  split
  · contradiction
  · rfl

theorem blockStep_at_last_word {s : State} {p : Word} (hst : s.st = .busy) (hphase : s.phase = .data) (ho : s.opl = some .ser)
    (hsrc : s.src = [p]) : blockStep s = .fault .unreachableState :=
  (blockStep_of_unreachable (by simp [State.unreachable, hst, hphase, ho, hsrc])).2

/-! ### The positions of a running job -/

theorem running_of_inv {s : State} (h : s.Inv) (hst : s.st = .busy) : s.running := by
  have hstatus := h.status
  unfold State.statusFits at hstatus
  rw [hst] at hstatus
  exact hstatus.1

theorem src_even_of_running {s : State} (h : s.running) (hphase : s.phase = .data) (ho : s.opl = some .ser) :
    s.src.length % 2 = 0 := by
  unfold State.running at h
  rw [hphase, ho] at h
  exact h.1

theorem bitsLeft_of_running {s : State} (h : s.running) (hphase : s.phase = .data) (ho : s.opl = some .ser) :
    s.bitsLeft = 0 := by
  unfold State.running at h
  rw [hphase, ho] at h
  exact h.2

/-- A running job is at no position of R207. -/
theorem reachable_of_running {s : State} (h : s.running) : s.unreachable = false := by
  unfold State.running at h
  unfold State.unreachable
  split <;> simp_all

theorem stepsLeft_pos_of_running {s : State} (hst : s.st = .busy) (h : s.running) : 0 < s.stepsLeft := by
  unfold State.running at h
  unfold State.stepsLeft
  split at h <;> simp_all

theorem stepsLeft_of_not_busy {s : State} (hst : s.st ≠ .busy) : s.stepsLeft = 0 := by
  unfold State.stepsLeft
  split <;> simp_all

theorem pendingPairs_of_not_busy {s : State} (hst : s.st ≠ .busy) : s.pendingPairs = [] := by
  unfold State.pendingPairs
  split <;> simp_all

/-- The block is in a job it can finish, or has finished one. -/
def State.onCourse (s : State) : Prop := s.st = .busy ∧ s.running ∨ s.st = .done

theorem running_of_onCourse {s : State} (h : s.onCourse) (hst : s.st = .busy) : s.running := by
  simpa [State.onCourse, hst] using h

/-- A job on its course is BUSY exactly while it has steps left. -/
theorem busy_iff_stepsLeft_pos {s : State} (h : s.onCourse) : s.st = .busy ↔ 0 < s.stepsLeft := by
  obtain ⟨hst, hrun⟩ | hst := h
  · simp [hst, stepsLeft_pos_of_running hst hrun]
  · simp [hst, stepsLeft_of_not_busy]

theorem done_iff_stepsLeft_eq_zero {s : State} (h : s.onCourse) : s.st = .done ↔ s.stepsLeft = 0 := by
  obtain ⟨hst, hrun⟩ | hst := h
  · simp [hst, (stepsLeft_pos_of_running hst hrun).ne']
  · simp [hst, stepsLeft_of_not_busy]

/-- `bitsDown` counts down wherever a bit is left. -/
theorem bitsDown_succ {b : Fin 9} (h : b ≠ 0) : b.val = (bitsDown b).val + 1 :=
  (Nat.succ_pred_eq_of_pos (Fin.pos_of_ne_zero h)).symm

/-- A block step takes one of the steps left and keeps the job on its course (R156). -/
theorem blockStep_keeps_course {s t : State} (h : blockStep s = .next t) (hs : s.onCourse) :
    t.onCourse ∧ s.stepsLeft = t.stepsLeft + 1 := by
  obtain ⟨hst, hcases⟩ := blockStep_cases h
  have hrun := running_of_onCourse hs hst
  obtain ⟨hphase, ho, rfl⟩ | ⟨hphase, ho, hleft, rfl⟩ | ⟨w, rest, hphase, ho, hleft, hsrc, rfl⟩ |
    ⟨hphase, ho, hleft, hsrc, rfl⟩ | ⟨hphase, ho, hleft, hsrc, rfl⟩ | ⟨hphase, ho, hsrc, rfl⟩ |
    ⟨p, q, rest, hphase, ho, hsrc, rfl⟩ | ⟨hphase, ho, rfl⟩ := hcases
  · rcases ho with ho | ho <;> simp [State.onCourse, State.running, State.stepsLeft, hst, hphase, ho] at hrun ⊢ <;>
      simp [hrun] <;> omega
  · have hdown : s.bitsLeft.val = (bitsDown s.bitsLeft).val + 1 := bitsDown_succ hleft
    rcases ho with ho | ho <;> simp [State.onCourse, State.running, State.stepsLeft, hst, hphase, ho] <;> omega
  · rcases ho with ho | ho <;>
      simp [State.onCourse, State.running, State.stepsLeft, hst, hphase, ho, hleft, hsrc] <;> omega
  · simp [State.onCourse, State.stepsLeft, hst, hphase, ho, hleft, hsrc]
  · simp [State.onCourse, State.running, State.stepsLeft, hst, hphase, ho, hleft, hsrc]
  · simp [State.onCourse, State.running, State.stepsLeft, hst, hphase, ho, hsrc, bitsLeft_of_running hrun hphase ho]
  · have heven := src_even_of_running hrun hphase ho
    simp [State.onCourse, State.running, State.stepsLeft, hst, hphase, ho, hsrc, bitsLeft_of_running hrun hphase ho] at heven ⊢
    omega
  · simp [State.onCourse, State.stepsLeft, hst, hphase]

/-- From a job on its course every number of block steps it has left can be taken, and each takes one (R156). -/
theorem blockRun_of_onCourse {k : Nat} {s : State} (hs : s.onCourse) (hk : k ≤ s.stepsLeft) :
    ∃ u, blockRun k s = .next u ∧ u.onCourse ∧ s.stepsLeft = u.stepsLeft + k := by
  induction k generalizing s with
  | zero => exact ⟨s, rfl, hs, rfl⟩
  | succ k ih =>
    have hst : s.st = .busy := (busy_iff_stepsLeft_pos hs).2 (by omega)
    have hrun := running_of_onCourse hs hst
    obtain ⟨t, ht⟩ := blockStep_of_reachable hst (reachable_of_running hrun)
    obtain ⟨hcourse, hleft⟩ := blockStep_keeps_course ht hs
    obtain ⟨u, hu, hucourse, huleft⟩ := ih hcourse (by omega)
    exact ⟨u, by simpa [blockRun, ht] using hu, hucourse, by omega⟩

/-- What every block step keeps holds after any number of them. -/
theorem blockRun_keeps {P : State → Prop} (hstep : ∀ {s t}, blockStep s = .next t → P s → P t) {k : Nat} {s u : State}
    (h : blockRun k s = .next u) (hs : P s) : P u := by
  induction k generalizing s with
  | zero =>
    cases h
    exact hs
  | succ k ih =>
    unfold blockRun at h
    split at h
    · rename_i t ht
      exact ih h (hstep ht hs)
    · cases h
    · cases h

/-! ### The pairs still to emit -/

@[simp] theorem emit_selectedPair (s : State) (p q : Dur) : (s.emit p q).selectedPair = s.selectedPair := by
  simp [State.selectedPair, State.selected, State.selectedBit]

@[simp] theorem emit_pendingPairs (s : State) (p q : Dur) : (s.emit p q).pendingPairs = s.pendingPairs := by
  simp [State.pendingPairs]

/-- Each pair the sequencer can select, with the position that selects it. -/
theorem selectedPair_cases {s : State} {p q : Dur} (h : s.selectedPair = some (p, q)) :
    s.st = .busy ∧
      ((s.phase = .leader ∧ (s.opl = some .enc ∨ s.opl = some .encser) ∧ p = leaderPulse ∧ q = leaderSpace) ∨
       (s.phase = .data ∧ (s.opl = some .enc ∨ s.opl = some .encser) ∧ s.bitsLeft ≠ 0 ∧ p = bitPulse ∧
          q = bitSpace s.selectedBit) ∨
       (∃ rest, s.phase = .data ∧ s.opl = some .ser ∧ s.src = p :: q :: rest)) := by
  cases hsel : s.selected with
  | none => simp [State.selectedPair, hsel] at h
  | some i =>
    obtain ⟨hst, ⟨rfl, hphase, ho⟩ | ⟨rfl, hphase, ho, hleft⟩ | ⟨p', q', rest, rfl, hphase, ho, hsrc⟩ | ⟨rfl, -⟩⟩ :=
      selected_cases hsel
    · simp only [State.selectedPair, hsel, Option.some.injEq, Prod.mk.injEq] at h
      exact ⟨hst, .inl ⟨hphase, ho, h.1.symm, h.2.symm⟩⟩
    · rw [selectedPair_of_bit hst hphase ho hleft] at h
      cases h
      exact ⟨hst, .inr (.inl ⟨hphase, ho, hleft, rfl, rfl⟩)⟩
    · simp only [State.selectedPair, hsel, Option.some.injEq, Prod.mk.injEq] at h
      obtain ⟨rfl, rfl⟩ := h
      exact ⟨hst, .inr (.inr ⟨rest, hphase, ho, hsrc⟩)⟩
    · simp [State.selectedPair, hsel] at h

theorem bitsLeft_at_leader {s : State} (h : s.running) (hphase : s.phase = .leader) : s.bitsLeft = 0 := by
  unfold State.running at h
  split at h <;> simp_all

/-- The selected pair is the next of the pairs still to emit, and the sequencer's move past it leaves the others. -/
theorem pendingPairs_of_pair {s : State} {p q : Dur} (h : s.selectedPair = some (p, q))
    (hleader : s.phase = .leader → s.bitsLeft = 0) : s.pendingPairs = (p, q) :: s.advance.pendingPairs := by
  obtain ⟨hst, ⟨hphase, ho, rfl, rfl⟩ | ⟨hphase, ho, hleft, rfl, rfl⟩ | ⟨rest, hphase, ho, hsrc⟩⟩ := selectedPair_cases h
  · rw [advance_of_leader hphase]
    rcases ho with ho | ho <;> simp [State.pendingPairs, hst, hphase, ho, hleader, bitPairs]
  · rw [advance_of_bit hphase ho]
    rcases ho with ho | ho <;> simp [State.pendingPairs, hst, hphase, ho, bitPairs_selected hleft]
  · rw [advance_of_record hphase ho]
    simp [State.pendingPairs, hst, hphase, ho, hsrc, pairsOf]

theorem load_pendingPairs {s : State} {w : Word} {rest : List Word} (hst : s.st = .busy) (hphase : s.phase = .data)
    (ho : s.opl = some .enc ∨ s.opl = some .encser) (hleft : s.bitsLeft = 0) (hsrc : s.src = w :: rest) :
    (s.load w rest).pendingPairs = s.pendingPairs := by
  rcases ho with ho | ho <;> simp [State.pendingPairs, hst, hphase, ho, hleft, hsrc, bitPairs, wordPairs]

theorem exhaust_pendingPairs {s : State} {op : Op} (hst : s.st = .busy) (hphase : s.phase = .data) (ho : s.opl = some op)
    (hleft : op ≠ .ser → s.bitsLeft = 0) (hsrc : s.src = []) : s.exhaust.pendingPairs = s.pendingPairs := by
  cases op <;> simp [State.pendingPairs, State.exhaust, hst, hphase, ho, hsrc, bitPairs, wordPairs, pairsOf] at hleft ⊢ <;>
    simp [hleft, bitPairs]

/-- A step that emits no symbol leaves the pairs still to emit as they are, and only ENC ends with it. -/
theorem bookkeepingStep_keeps_pendingPairs {s t : State} (hsel : s.selected = none) (h : bookkeepingStep s = .next t) :
    t.pendingPairs = s.pendingPairs ∧ (s.opl ≠ some .enc → t.st = .busy) := by
  have hnobit (hst : s.st = .busy) (hphase : s.phase = .data) (ho : s.opl = some .enc ∨ s.opl = some .encser) :
      s.bitsLeft = 0 := (selected_eq_none_iff_no_bit hst hphase ho).1 hsel
  unfold bookkeepingStep at h
  split at h <;> cases h <;> rename_i hst hphase ho hsrc
  · exact ⟨load_pendingPairs hst hphase (.inl ho) (hnobit hst hphase (.inl ho)) hsrc, fun _ => hst⟩
  · exact ⟨load_pendingPairs hst hphase (.inr ho) (hnobit hst hphase (.inr ho)) hsrc, fun _ => hst⟩
  · refine ⟨exhaust_pendingPairs hst hphase ho (fun hser => hnobit hst hphase ?_) hsrc, fun hne => ?_⟩
    · rename_i op
      cases op <;> simp_all
    · rw [exhaust_of_bytes hne]
      exact hst

/-- At the trailer of a byte-mode job no pair is left. -/
theorem pendingPairs_of_trailer {s : State} (hsel : s.selected = some .trailer) :
    s.pendingPairs = [] ∧ s.opl ≠ some .enc := by
  obtain ⟨hst, ⟨hi, -⟩ | ⟨hi, -⟩ | ⟨_, _, _, hi, -⟩ | ⟨-, hphase, ho⟩⟩ := selected_cases hsel
  · cases hi
  · obtain ⟨-, hd⟩ | ⟨-, hd⟩ := decodeBit_cases s.selectedBit <;> cases hi.trans hd
  · cases hi
  · rcases ho with ho | ho <;> simp [State.pendingPairs, hphase, ho]

/-- The entries of a list of pairs, as OUTD holds them (R148). -/
def pairEntries (qs : List (Dur × Dur)) : List Dur := qs.flatMap fun q => [q.1, q.2]

theorem pairEntries_append (qs qs' : List (Dur × Dur)) : pairEntries (qs ++ qs') = pairEntries qs ++ pairEntries qs' :=
  List.flatMap_append

theorem pairEntries_length (qs : List (Dur × Dur)) : (pairEntries qs).length = 2 * qs.length :=
  length_flatMap_of_blocks (c := 2) (fun _ => rfl) qs

/-- What a block step moves: the pairs `qs` leave those still to emit and come to OUTD in ENC mode, to OUTB in the byte modes,
where the step that ends the job appends the trailer. -/
theorem blockStep_moves_pairs {s t : State} (h : blockStep s = .next t) (hrun : s.running) :
    ∃ qs, s.pendingPairs = qs ++ t.pendingPairs ∧
      (s.opl = some .enc → t.outd = s.outd ++ pairEntries qs ∧ t.outb = s.outb) ∧
      (s.opl ≠ some .enc → t.outd = s.outd ∧
        t.outb = s.outb ++ qs.flatMap pairRecord ++ if t.st = .busy then [] else trailerBytes) := by
  obtain hsel | ⟨p, q, hpair⟩ | hsel := selected_none_or_pair_or_trailer s
  · rw [blockStep_of_none hsel] at h
    obtain ⟨hpending, hbusy⟩ := bookkeepingStep_keeps_pendingPairs hsel h
    obtain ⟨houtd, houtb⟩ := bookkeepingStep_keeps_outputs h
    refine ⟨[], by simp [hpending], fun _ => by simp [houtd, houtb, pairEntries], fun ho => by simp [houtd, houtb, hbusy ho]⟩
  · rw [blockStep_of_pair hpair] at h
    cases h
    have ⟨hst, _⟩ := selectedPair_cases hpair
    have hpending := pendingPairs_of_pair (s := s.emit p q) (by simpa using hpair)
      (by simpa using bitsLeft_at_leader hrun)
    refine ⟨[(p, q)], by simpa using hpending, fun ho => ?_, fun ho => ?_⟩
    · simp [emit_of_enc p q ho, pairEntries]
    · simp [emit_of_bytes p q ho, hst, pairRecord]
  · obtain ⟨hpending, ho⟩ := pendingPairs_of_trailer hsel
    rw [blockStep_of_trailer hsel] at h
    cases h
    exact ⟨[], by simp [hpending, pendingPairs_of_not_busy], fun henc => absurd henc ho, fun _ => by simp⟩

/-! ### The final output -/

theorem finalOutd_of_enc {s : State} (ho : s.opl = some .enc) : s.finalOutd = s.outd ++ pairEntries s.pendingPairs := if_pos ho

theorem finalOutd_of_bytes {s : State} (ho : s.opl ≠ some .enc) : s.finalOutd = s.outd := if_neg ho

theorem finalOutb_of_enc {s : State} (ho : s.opl = some .enc) : s.finalOutb = s.outb := by
  simp [State.finalOutb, ho]

theorem finalOutb_of_busy {s : State} (ho : s.opl ≠ some .enc) (hst : s.st = .busy) :
    s.finalOutb = s.outb ++ recordBuffer s.pendingPairs := by
  rw [State.finalOutb, if_pos ⟨hst, ho⟩, List.append_assoc]
  rfl

/-- Once a job is no longer BUSY its output is its final output. -/
theorem finalOutd_of_not_busy {s : State} (hst : s.st ≠ .busy) : s.finalOutd = s.outd := by
  simp [State.finalOutd, pendingPairs_of_not_busy hst]

theorem finalOutb_of_not_busy {s : State} (hst : s.st ≠ .busy) : s.finalOutb = s.outb := by
  simp [State.finalOutb, hst]

theorem outd_prefix_finalOutd (s : State) : s.outd <+: s.finalOutd := by
  unfold State.finalOutd
  split <;> simp

theorem outb_prefix_finalOutb (s : State) : s.outb <+: s.finalOutb := by
  unfold State.finalOutb
  split <;> simp

/-- A block step moves pairs from those still to emit to the output, so the final output stays (R155, R157). -/
theorem blockStep_keeps_finalOutput {s t : State} (h : blockStep s = .next t) (hrun : s.running) :
    t.finalOutd = s.finalOutd ∧ t.finalOutb = s.finalOutb := by
  have ⟨hst, _⟩ := blockStep_cases h
  obtain ⟨-, -, hopl⟩ := blockStep_keeps_registers h
  obtain ⟨qs, hpending, henc, hbytes⟩ := blockStep_moves_pairs h hrun
  by_cases ho : s.opl = some .enc
  · obtain ⟨houtd, houtb⟩ := henc ho
    rw [finalOutd_of_enc ho, finalOutb_of_enc ho, finalOutd_of_enc (hopl.trans ho), finalOutb_of_enc (hopl.trans ho)]
    simp [houtd, houtb, hpending, pairEntries_append]
  · obtain ⟨houtd, houtb⟩ := hbytes ho
    rw [finalOutd_of_bytes ho, finalOutd_of_bytes (hopl ▸ ho), finalOutb_of_busy ho hst]
    refine ⟨houtd, ?_⟩
    by_cases htst : t.st = .busy
    · rw [finalOutb_of_busy (hopl ▸ ho) htst]
      simp [houtb, htst, hpending, recordBuffer]
    · rw [finalOutb_of_not_busy htst]
      simp [houtb, htst, hpending, recordBuffer, pendingPairs_of_not_busy htst]

/-- A block step appends whole pairs and records, and the trailer last (R58). -/
theorem blockStep_keeps_wholeSymbols {s t : State} (h : blockStep s = .next t) (hrun : s.running) (hs : s.wholeSymbols) :
    t.wholeSymbols := by
  have ⟨hst, _⟩ := blockStep_cases h
  obtain ⟨-, -, hopl⟩ := blockStep_keeps_registers h
  obtain ⟨qs, -, henc, hbytes⟩ := blockStep_moves_pairs h hrun
  obtain ⟨hd, hb, -⟩ := hs
  have hbusy := hb hst
  by_cases ho : s.opl = some .enc
  · obtain ⟨houtd, houtb⟩ := henc ho
    have hlen := pairEntries_length qs
    refine ⟨?_, fun _ => by rwa [houtb], fun _ hne => absurd (hopl.trans ho) hne⟩
    rw [houtd, List.length_append]
    omega
  · obtain ⟨houtd, houtb⟩ := hbytes ho
    have hlen := length_flatMap_of_blocks pairRecord_length qs
    refine ⟨by rwa [houtd], fun htst => ?_, fun htst _ => ?_⟩
    · simp [houtb, htst, hlen]
      omega
    · simp [houtb, htst, hlen, trailerBytes]
      omega

/-! ### An accepted ISSUE -/

/-- The state an accepted ISSUE leaves. -/
theorem accepted_of_busy {s t : State} {c : Word} {p : List Word} {op : Op} (hs : s.st ≠ .busy) (hc : decodeOp c = some op)
    (ht : exec (.issue c p) s = .next t) (htst : t.st = .busy) :
    payloadError Config.maxItems op p = none ∧ t = ((s.latch c).accept op p).retire := by
  rw [exec_issue] at ht
  cases ht
  obtain ⟨hb, -⟩ | ⟨-, e, -, -, ht⟩ | ⟨-, op', rfl, hp, ht⟩ := issueAction_cases Config.maxItems c p s
  · exact absurd hb hs
  · simp [ht] at htst
  · rw [decodeOp_cmdWord] at hc
    cases hc
    exact ⟨hp, ht⟩

theorem encodePairs_payloadBytes (p : List Word) : encodePairs (payloadBytes p) = (leaderPulse, leaderSpace) :: wordPairs p := by
  rw [encodePairs_eq_bitPairs, payloadBytes, List.flatMap_map]
  rfl

theorem jobOutputs_encser (p : List Word) : jobOutputs .encser p = ([], encodedBuffer (payloadBytes p)) := by
  simp [jobOutputs, serialize_encodePulses]

theorem jobOutputs_ser {p : List Word} (heven : p.length % 2 = 0) : jobOutputs .ser p = ([], recordBuffer (pairsOf p)) := by
  simp [jobOutputs, serialize_of_even heven]

theorem accepted_running (s : State) (c : Word) {op : Op} {p : List Word} (hp : payloadError Config.maxItems op p = none) :
    ((s.latch c).accept op p).retire.running := by
  obtain ⟨-, -, heven⟩ := payloadError_eq_none.1 hp
  cases op <;> simp [State.running, startPhase]
  exact heven rfl

/-- What the job has to emit right after its ISSUE is the output of the source's functions (R155). -/
theorem accepted_finalOutput (s : State) (c : Word) {op : Op} {p : List Word} (hp : payloadError Config.maxItems op p = none) :
    (((s.latch c).accept op p).retire.finalOutd, ((s.latch c).accept op p).retire.finalOutb) = jobOutputs op p := by
  cases op with
  | enc =>
    rw [finalOutd_of_enc rfl, finalOutb_of_enc rfl]
    simp [State.pendingPairs, startPhase, jobOutputs, encodePulses_eq_flatMap_encodePairs, encodePairs_payloadBytes, pairEntries]
  | encser =>
    rw [finalOutd_of_bytes (by simp), finalOutb_of_busy (by simp) rfl, jobOutputs_encser, encodedBuffer_eq_recordBuffer,
      encodePairs_payloadBytes]
    simp [State.pendingPairs, startPhase]
  | ser =>
    obtain ⟨-, -, heven⟩ := payloadError_eq_none.1 hp
    rw [finalOutd_of_bytes (by simp), finalOutb_of_busy (by simp) rfl, jobOutputs_ser (heven rfl)]
    simp [State.pendingPairs, startPhase]

theorem accepted_stepsLeft (s : State) (c : Word) (op : Op) (p : List Word) :
    ((s.latch c).accept op p).retire.stepsLeft = jobSteps op p.length := by
  cases op <;> simp [State.stepsLeft, startPhase, jobSteps]

/-! ### A job and its output along the block steps -/

/-- The block is in a job that ends with the output `out`, or has ended one with it. -/
structure State.Yields (s : State) (out : List Dur × List Byte) : Prop where
  course : s.onCourse
  final : (s.finalOutd, s.finalOutb) = out
  symbols : s.wholeSymbols

theorem accepted_yields (s : State) (c : Word) {op : Op} {p : List Word} (hp : payloadError Config.maxItems op p = none) :
    ((s.latch c).accept op p).retire.Yields (jobOutputs op p) :=
  ⟨.inl ⟨rfl, accepted_running s c hp⟩, accepted_finalOutput s c hp, by simp [State.wholeSymbols]⟩

theorem blockStep_keeps_yields {out : List Dur × List Byte} {s t : State} (h : blockStep s = .next t) (hs : s.Yields out) :
    t.Yields out := by
  have ⟨hst, _⟩ := blockStep_cases h
  have hrun := running_of_onCourse hs.course hst
  obtain ⟨houtd, houtb⟩ := blockStep_keeps_finalOutput h hrun
  exact ⟨(blockStep_keeps_course h hs.course).1, by rw [houtd, houtb, hs.final], blockStep_keeps_wholeSymbols h hrun hs.symbols⟩

theorem output_of_yields {s : State} {out : List Dur × List Byte} (hs : s.Yields out) (hst : s.st ≠ .busy) :
    s.outd = out.1 ∧ s.outb = out.2 := by
  obtain ⟨-, rfl, -⟩ := hs
  exact ⟨(finalOutd_of_not_busy hst).symm, (finalOutb_of_not_busy hst).symm⟩

/-! ### The obligations -/

/-- Settles O43: the steps left are the tabled number and each block step takes one; the final output does not change on the way. -/
theorem acceptedJobCompletes : Obligations.AcceptedJobCompletes := by
  unfold Obligations.AcceptedJobCompletes
  intro s t c p op hs hc ht htst
  obtain ⟨hp, rfl⟩ := accepted_of_busy hs hc ht htst
  have hyields := accepted_yields s c hp
  rw [← accepted_stepsLeft s c op p]
  constructor
  · obtain ⟨u, hu, hucourse, huleft⟩ := blockRun_of_onCourse hyields.course le_rfl
    have hdone : u.st = .done := (done_iff_stepsLeft_eq_zero hucourse).2 (by omega)
    obtain ⟨houtd, houtb⟩ := output_of_yields (blockRun_keeps blockStep_keeps_yields hu hyields) (by simp [hdone])
    refine ⟨u, hu, hdone, ?_, ?_, ?_⟩
    · rintro rfl
      exact ⟨houtd, houtb⟩
    · rintro rfl
      rw [jobOutputs_encser] at houtd houtb
      exact ⟨by rw [houtb, serialize_encodePulses], houtd⟩
    · rintro rfl
      obtain ⟨-, -, heven⟩ := payloadError_eq_none.1 hp
      rw [jobOutputs_ser (heven rfl)] at houtd houtb
      exact ⟨by rw [houtb, serialize_of_even (heven rfl)], houtd⟩
  · intro k hk
    obtain ⟨u, hu, hucourse, huleft⟩ := blockRun_of_onCourse hyields.course hk.le
    exact ⟨u, hu, (busy_iff_stepsLeft_pos hucourse).2 (by omega)⟩

/-- Settles O44: what a job still yields is fixed, and its output so far is the beginning of that. -/
theorem runningJobShowsAPrefix : Obligations.RunningJobShowsAPrefix := by
  unfold Obligations.RunningJobShowsAPrefix
  intro s t u c p op k hs hc ht htst _ hu
  obtain ⟨hp, rfl⟩ := accepted_of_busy hs hc ht htst
  have hyields := blockRun_keeps blockStep_keeps_yields hu (accepted_yields s c hp)
  obtain ⟨heven, hwhole, -⟩ := hyields.symbols
  refine ⟨?_, ?_, fun _ => heven, fun _ => hwhole, fun hdone => output_of_yields hyields (by simp [hdone])⟩
  · rw [← hyields.final]
    exact outd_prefix_finalOutd u
  · rw [← hyields.final]
    exact outb_prefix_finalOutb u

/-- Settles O29: the sequencer selects the bit where one is left, and the load or the payload-exhausted step where none is. -/
theorem dataStepOfByteModes : Obligations.DataStepOfByteModes := by
  unfold Obligations.DataStepOfByteModes
  intro s hst hphase ho
  refine ⟨fun hleft hsrc hencser => ?_, fun hleft hsrc henc => ?_, fun w rest hleft hsrc => ?_, fun hleft => ?_⟩
  · rw [blockStep_at_exhausted hst hphase hencser (fun _ => hleft) hsrc, exhaust_of_bytes (by simp [hencser])]
  · rw [blockStep_at_exhausted hst hphase henc (fun _ => hleft) hsrc, exhaust_of_enc henc]
  · exact blockStep_at_load hst hphase ho hleft hsrc
  · exact blockStep_at_bit hst hphase ho hleft

/-- Settles O30: one position after the other; the invariant says that a SER job in its data phase has pairs of words left. -/
theorem leaderSerAndTrailerSteps : Obligations.LeaderSerAndTrailerSteps := by
  unfold Obligations.LeaderSerAndTrailerSteps
  intro s hst
  refine ⟨blockStep_at_leader hst, fun hphase ho hsrc => ?_, fun p q rest => blockStep_at_record hst,
    fun p => blockStep_at_last_word hst, fun hinv => src_even_of_running (running_of_inv hinv hst),
    blockStep_at_trailer hst⟩
  rw [blockStep_at_exhausted hst hphase ho (fun hne => absurd rfl hne) hsrc, exhaust_of_bytes (by simp [ho])]

/-- Settles O14: the register map has four entries, and a read of one is no action on the block. -/
theorem rdregReturnsTheRegister : Obligations.RdregReturnsTheRegister := by
  unfold Obligations.RdregReturnsTheRegister
  intro s
  refine ⟨rfl, ?_, ?_, ?_, fun _ => rfl, fun n hn => ?_, fun n hn => exec_rdreg_of_none (readReg_eq_none s n hn)⟩
  · cases hst : s.st <;> simp [State.readReg, State.statusWord, St.code, hst]
  · cases herr : s.err <;> simp [State.readReg, State.errWord, errCode, herr]
  · by_cases ho : s.opl = some .enc
    · simp [State.readReg, State.outLen, outCount_of_enc, ho]
    · simp [State.readReg, State.outLen, outCount_of_bytes, ho]
  · obtain ⟨v, hv⟩ := exists_readReg s n hn
    exact ⟨_, exec_rdreg_of_some hv, sameBlock_respond_retire s _⟩

/-- Settles O15: the item is read from the list of the mode, and a read of one is no action on the block. -/
theorem rdoutReturnsTheItem : Obligations.RdoutReturnsTheItem := by
  unfold Obligations.RdoutReturnsTheItem
  intro s i
  refine ⟨fun hi ho => ?_, fun hi ho => ?_, fun hnone => exec_rdout_of_none ?_, rfl⟩
  · have hread : s.outRead i = some (.duration i s.outd[i]) := by simp [outRead_of_enc i ho, hi]
    exact ⟨hread, _, exec_rdout_of_some hread, sameBlock_respond_retire s _⟩
  · have hread : s.outRead i = some (.byte i s.outb[i]) := by simp [outRead_of_bytes i ho, hi]
    exact ⟨hread, _, exec_rdout_of_some hread, sameBlock_respond_retire s _⟩
  · obtain ho | ⟨ho, hi⟩ | ⟨ho, hi⟩ := hnone
    · exact outRead_of_no_operation i ho
    · simp [outRead_of_enc i ho, hi]
    · simp [outRead_of_bytes i ho, hi]

/-- Settles O22: the record of a pair is its eight bytes. -/
theorem emitAppendsByMode : Obligations.EmitAppendsByMode := by
  unfold Obligations.EmitAppendsByMode
  intro s p q
  split
  · exact emit_of_enc p q ‹_›
  · exact emit_of_bytes p q ‹_›

end Sys2Proof.Machine
end

section
/-!
PROOFS. The statements about the host (44_host_context.md): the courses of a transmission.
-/

namespace Sys2Proof.Machine

section Transmit
variable {maxItems : Nat} {letters : HexLetters} {text : List Char} (r : DeviceResults) (cfg : DeviceConfig)

/-! ### The three courses of a transmission (R179) -/

theorem transmit_of_decode_error {f : HexFailure} (hdecode : hexDecode letters text = .error f) :
    transmit maxItems letters r cfg text = ⟨[], [.closed], .failed (.decode f.offending)⟩ := by
  simp [transmit, hdecode]

theorem transmit_of_block_error {bs : List Byte} {e : ErrCode} (hdecode : hexDecode letters text = .ok bs)
    (hencode : encodePath maxItems bs = .error e) :
    transmit maxItems letters r cfg text = ⟨[], [.closed], .failed (.internalInvariant e)⟩ := by
  simp [transmit, hdecode, hencode]

theorem transmit_of_buffer {bs buf : List Byte} (hdecode : hexDecode letters text = .ok bs)
    (hencode : encodePath maxItems bs = .ok buf) :
    transmit maxItems letters r cfg text = deviceSequence r cfg buf := by
  simp [transmit, hdecode, hencode]

end Transmit

/-! ### The device sequence -/

/-- Step 1 of R174: whatever the device answers, the first operation is the open. -/
theorem deviceSequence_ops_head? (r : DeviceResults) (cfg : DeviceConfig) (buf : List Byte) :
    (deviceSequence r cfg buf).ops.head? = some (.open cfg.devicePath .readWrite) := by
  obtain ⟨opening, carrier, dutyCycle, writing⟩ := r
  cases opening with
  | stalled | failed => rfl
  | succeeded =>
    cases carrier with
    | stalled | failed => rfl
    | succeeded =>
      cases dutyCycle with
      | stalled | failed => rfl
      | succeeded => cases writing <;> rfl

/-- Settles O57: one equation for each course, and the device sequence begins with the open. -/
theorem encodingPrecedesTheDevice : Obligations.EncodingPrecedesTheDevice := by
  unfold Obligations.EncodingPrecedesTheDevice
  intro maxItems letters r cfg text
  refine ⟨fun f hdecode => ?_, fun bs e hdecode hencode => ?_, fun bs buf hdecode hencode => ?_⟩
  · simp [transmit_of_decode_error r cfg hdecode]
  · simp [transmit_of_block_error r cfg hdecode hencode]
  · rw [transmit_of_buffer r cfg hdecode hencode]
    exact ⟨rfl, deviceSequence_ops_head? r cfg buf⟩

end Sys2Proof.Machine
end

section
/-!
PROOFS. The statements about the exceptions (60_exceptions.md): what a failed ISSUE leaves, and how long an error stays.
-/

namespace Sys2Proof.Machine

/-! ### An ISSUE by its first error -/

@[simp] theorem issueError_cmdWord (m : Nat) (op : Op) (p : List Word) : issueError m (cmdWord op) p = payloadError m op p := by
  simp [issueError]

/-- An ISSUE with an error ends in `fail E` right after its first writes (R141, R193). -/
theorem issueAction_of_error {m : Nat} {c : Word} {p : List Word} {e : ErrCode} {s : State} (hs : s.st ≠ .busy)
    (he : issueError m c p = some e) : issueAction m c p s = ((s.latch c).failIssue e).retire := by
  rw [issueAction_not_busy hs, issueTransition_eq, he]

theorem outLen_eq_zero {s : State} (ho : s.opl ≠ some .enc) (hb : s.outb = []) : s.outLen = 0#32 := by
  simp [State.outLen, outCount_of_bytes ho, hb]

/-! ### The obligations -/

/-- Settles O11: the ISSUE is its first writes and `fail E`, and with OPL = NONE there is nothing to count or to read. -/
theorem failedIssueLeavesNoOutput : Obligations.FailedIssueLeavesNoOutput := by
  unfold Obligations.FailedIssueLeavesNoOutput
  intro s c p e hs he
  refine ⟨((s.latch c).failIssue e).retire, ?_, ?_, ?_, fun i => exec_rdout_of_none ?_⟩
  · rw [exec_issue, issueAction_of_error hs he]
  · simp [sameBlock]
  · exact outLen_eq_zero (by simp) (by simp)
  · exact outRead_of_no_operation i (by simp)

/-- Settles O54: a block that is not BUSY has no block step, so only ISSUE and RESET write ST and ERR; ISSUE is accepted or fails. -/
theorem errorPersistsUntilIssueOrReset : Obligations.ErrorPersistsUntilIssueOrReset := by
  unfold Obligations.ErrorPersistsUntilIssueOrReset
  intro s hst
  have hidle : s.st ≠ .busy := by simp [hst]
  refine ⟨fun t ht hd => ?_, fun c p => ⟨by simp [actionEnabled, hst], _, exec_issue c p s, ?_⟩⟩
  · obtain ⟨-, hsame, herr, -⟩ | ⟨hbusy, -⟩ := step_keeps_or_blockSteps ht hd
    · exact ⟨hsame.symm.trans hst, herr.symm⟩
    · exact absurd hbusy hidle
  · obtain ⟨hbusy, -⟩ | ⟨-, e, he, -, ht⟩ | ⟨-, op, rfl, hp, ht⟩ := issueAction_cases Config.maxItems c p s
    · exact absurd hbusy hidle
    · right
      exact ⟨e, he, by simp [ht], by simp [ht]⟩
    · left
      simp [ht, hp]

end Sys2Proof.Machine
end

section
/-!
PROOFS. The statement about RESET (70_reset_and_hazards.md): it is always enabled and gives every variable of the block its reset value.
-/

namespace Sys2Proof.Machine

@[simp] theorem actionEnabled_reset (s : State) : actionEnabled s .reset = true := rfl

/-- Settles O16: RESET answers the block's reset and the program's move, and that block is the reset state's. -/
theorem resetSetsEveryVariable : Obligations.ResetSetsEveryVariable := by
  unfold Obligations.ResetSetsEveryVariable
  intro s
  have hblock : sameBlock s.resetBlock.retire State.reset := sameBlock_reset s
  exact ⟨actionEnabled_reset s, s.resetBlock.retire, exec_reset s, hblock⟩

end Sys2Proof.Machine
end

section
/-!
PROOFS. The statements about the codes of the instructions (30_encoding.md): the decoder undoes the encoder, and a 32-bit value is
what its little-endian bytes rebuild.
-/

namespace Sys2Proof.Machine

/-! ### The bytes of a 32-bit value -/

/-- Little-endian bytes lose nothing (R51, R55). -/
theorem le32Value_bytes (v : Word) :
    le32Value (v.extractLsb' 0 8) (v.extractLsb' 8 8) (v.extractLsb' 16 8) (v.extractLsb' 24 8) = v := by
  apply BitVec.eq_of_toNat_eq
  simp only [le32Value, BitVec.toNat_ofNat, BitVec.extractLsb'_toNat, Nat.shiftRight_eq_div_pow]
  have := v.isLt
  omega

theorem le32_length (v : Word) : (le32 v).length = 4 := rfl

/-- The trailer is the little-endian form of 458 (R122). -/
theorem trailerBytes_eq_le32 : trailerBytes = le32 458#32 := by decide

/-- The host's rebuilding reads four bytes and no more (R55). -/
theorem rebuiltValue_of_take {buf : List Byte} {j : Nat} {v : Word} (h : (buf.drop (4 * j)).take 4 = le32 v) :
    rebuiltValue buf j = some v := by
  rw [rebuiltValue, ← List.take_append_drop 4 (buf.drop (4 * j)), h]
  exact congrArg some (le32Value_bytes v)

/-! ### A serialized buffer by its 32-bit values -/

/-- The records of the pairs of an even sequence are its entries' bytes in order. -/
theorem flatMap_pairRecord_pairsOf {ds : List Dur} (heven : ds.length % 2 = 0) :
    (pairsOf ds).flatMap pairRecord = ds.flatMap le32 := by
  induction ds using pairsOf.induct with
  | case1 p q rest ih =>
    have hrest : rest.length % 2 = 0 := by
      simp only [List.length_cons] at heven
      omega
    simp [pairsOf, pairRecord, recordBytes, ih hrest]
  | case2 ds hshort =>
    match ds with
    | [] => rfl
    | [_] => simp at heven
    | p :: q :: rest => exact absurd rfl (hshort p q rest)

/-- A serialized buffer is one 32-bit value after the other, 458 the last (R120, R122). -/
theorem recordBuffer_pairsOf {ds : List Dur} (heven : ds.length % 2 = 0) :
    recordBuffer (pairsOf ds) = (ds ++ [458#32]).flatMap le32 := by
  rw [recordBuffer, flatMap_pairRecord_pairsOf heven, trailerBytes_eq_le32]
  simp

/-- Value `j` of a buffer of 32-bit values is entry `j` of them. -/
theorem rebuiltValue_flatMap_le32 {vs : List Word} {j : Nat} {v : Word} (h : vs[j]? = some v) :
    rebuiltValue (vs.flatMap le32) j = some v := by
  obtain ⟨hj, rfl⟩ := List.getElem?_eq_some_iff.mp h
  apply rebuiltValue_of_take
  rw [← List.append_nil (vs.flatMap le32)]
  exact take_drop_flatMap_of_blocks le32_length [] hj

/-! ### The decoder on each row's code -/

theorem decodeRecord_recordBytes (p q : Dur) : decodeRecord (recordBytes p q) = .ok (.record p q) := by
  simp only [recordBytes, le32, List.cons_append, List.nil_append, decodeRecord, le32Value_bytes]

theorem decodeCommand_of_illegal {w : Word} (h : decodeOp w = none) (p : List Word) : decodeCommand w p = .illegal w p := by
  rw [decodeCommand, h]

/-! ### The obligations -/

/-- Settles O1: row by row; an ILLEGAL row's word is well formed only where it names no operation, and a record's bytes rebuild its
pair. -/
theorem decodeOfEncodeIsTheInstruction : Obligations.DecodeOfEncodeIsTheInstruction := by
  unfold Obligations.DecodeOfEncodeIsTheInstruction
  intro i hwf
  cases i with
  | encser | enc | ser => simp [encode, decode, decodeCommand]
  | illegal w p =>
    have hnone : decodeOp w = none := by simpa [Instr.wf] using hwf
    exact congrArg Except.ok (decodeCommand_of_illegal hnone p)
  | record p q => exact decodeRecord_recordBytes p q
  | leader | trailer => decide
  | bit0 | bit1 | issue | wait | rdreg | rdout | reset => rfl

/-- Settles O3: each word is closed, and the decoder is run on it. -/
theorem tabledWordsDecodeToTheirRows : Obligations.TabledWordsDecodeToTheirRows := by
  unfold Obligations.TabledWordsDecodeToTheirRows
  decide

/-- Settles O40: a serialized buffer is the entries' bytes and those of 458 (`recordBuffer_pairsOf`). -/
theorem rebuiltValuesAreTheEntries : Obligations.RebuiltValuesAreTheEntries := by
  unfold Obligations.RebuiltValuesAreTheEntries
  refine ⟨le32Value_bytes, fun ds buf hbuf => ?_⟩
  obtain ⟨heven, rfl⟩ := serialize_eq_ok hbuf
  rw [recordBuffer_pairsOf heven]
  refine ⟨fun j hj => rebuiltValue_flatMap_le32 ?_, rebuiltValue_flatMap_le32 List.getElem?_concat_length⟩
  rw [List.getElem?_append_left hj, List.getElem?_eq_getElem hj]

end Sys2Proof.Machine
end

section
/-!
PROOFS. The statements about the step (42_job_control.md R140, R145; 20_memory.md R60): what it runs where the host moves, where the
block moves and where both may, and which faults it can come to.
-/

namespace Sys2Proof.Machine

/-! ### Which agents may move -/

theorem hostEnabled_of_program {s : State} {a : HostAction} {rest : List HostAction} (hp : s.program = a :: rest) :
    s.hostEnabled = actionEnabled s a := by
  simp [State.hostEnabled, hp]

/-- ISSUE and WAIT are the actions a BUSY block holds (R141, R153). -/
theorem hostEnabled_of_held {s : State} {a : HostAction} {rest : List HostAction} (hst : s.st = .busy)
    (hheld : (∃ c p, a = .issue c p) ∨ a = .wait) (hp : s.program = a :: rest) : s.hostEnabled = false := by
  rw [hostEnabled_of_program hp]
  obtain ⟨c, p, rfl⟩ | rfl := hheld <;> simp [actionEnabled, hst]

theorem contended_of_enabled {s : State} {a : HostAction} {rest : List HostAction} (hp : s.program = a :: rest)
    (hen : actionEnabled s a = true) (hst : s.st = .busy) : s.contended = true := by
  simp [State.contended, State.blockEnabled, hostEnabled_of_program hp, hen, hst]

theorem not_contended_of_not_busy {s : State} (hst : s.st ≠ .busy) : s.contended = false := by
  simp [State.contended, State.blockEnabled, hst]

theorem settled_of_contended {s : State} (h : s.contended = true) : s.settled = s.afterChoice := if_pos h

theorem settled_of_not_contended {s : State} (h : s.contended = false) : s.settled = s := by
  simp [State.settled, h]

@[simp] theorem afterChoice_selected (s : State) : s.afterChoice.selected = s.selected := rfl

@[simp] theorem afterChoice_unreachable (s : State) : s.afterChoice.unreachable = s.unreachable := rfl

@[simp] theorem settled_unreachable (s : State) : s.settled.unreachable = s.unreachable := by
  unfold State.settled
  split <;> rfl

theorem afterChoice_of_given {s : State} {a : Agent} {cs : List Agent} (h : s.choices = a :: cs) :
    s.afterChoice = { s with choices := cs, turn := s.turn + 1 } := by
  rw [State.afterChoice, h, List.tail_cons]

theorem afterChoice_of_free {s : State} (h : s.choices = []) : s.afterChoice = { s with turn := s.turn + 1 } := by
  rw [State.afterChoice, h, List.tail_nil, ← h]

theorem choice_of_given {s : State} {a : Agent} {cs : List Agent} (h : s.choices = a :: cs) : s.choice = a := by
  simp [State.choice, h]

theorem busy_of_mover_block {s : State} (h : s.mover = some .block) : s.st = .busy := by
  by_contra hst
  simp [State.mover, State.contended, State.blockEnabled, hst] at h

/-! ### The step by the agent that moves -/

/-- The host's step, where the block has none. -/
theorem step_of_host_alone {s : State} {a : HostAction} {rest : List HostAction} (hp : s.program = a :: rest)
    (hen : actionEnabled s a = true) (hst : s.st ≠ .busy) : step s = exec a.toInstr s := by
  have hcont := not_contended_of_not_busy hst
  have hmover : s.mover = some .host := by simp [State.mover, hcont, hostEnabled_of_program hp, hen]
  rw [step_of_reachable (reachable_of_not_busy hst), moverStep, hmover, settled_of_not_contended hcont]
  simp [hostStep, hp]

/-- A step in which nothing but the block could move, in the unreachable states too. -/
theorem step_of_block_alone {s : State} (hst : s.st = .busy) (hhost : s.hostEnabled = false) : step s = blockStep s := by
  cases hu : s.unreachable with
  | true => rw [step_of_unreachable hu, (blockStep_of_unreachable hu).2]
  | false =>
    have hcont : s.contended = false := by simp [State.contended, hhost]
    have hmover : s.mover = some .block := by simp [State.mover, hcont, hhost, State.blockEnabled, hst]
    rw [step_of_reachable hu, moverStep, hmover, settled_of_not_contended hcont]

theorem step_of_chosen_host {s : State} {a : HostAction} {rest : List HostAction} (hp : s.program = a :: rest)
    (hcont : s.contended = true) (hu : s.unreachable = false) (hchoice : s.choice = .host) :
    step s = exec a.toInstr s.afterChoice := by
  have hmover : s.mover = some .host := by simp [State.mover, hcont, hchoice]
  rw [step_of_reachable hu, moverStep, hmover, settled_of_contended hcont]
  simp [hostStep, hp]

theorem step_of_chosen_block {s : State} (hcont : s.contended = true) (hchoice : s.choice = .block) :
    step s = blockStep s.afterChoice := by
  cases hu : s.unreachable with
  | true => rw [step_of_unreachable hu, (blockStep_of_unreachable (by simpa using hu)).2]
  | false =>
    have hmover : s.mover = some .block := by simp [State.mover, hcont, hchoice]
    rw [step_of_reachable hu, moverStep, hmover, settled_of_contended hcont]

/-- Where both may move, the step is that of one of them. -/
theorem step_of_contended {s : State} {a : HostAction} {rest : List HostAction} (hp : s.program = a :: rest)
    (hcont : s.contended = true) (hu : s.unreachable = false) :
    step s = exec a.toInstr s.afterChoice ∨ step s = blockStep s.afterChoice := by
  cases hchoice : s.choice with
  | host => exact .inl (step_of_chosen_host hp hcont hu hchoice)
  | block => exact .inr (step_of_chosen_block hcont hchoice)

theorem step_of_held {s : State} {a : HostAction} {rest : List HostAction} (hst : s.st = .busy)
    (hheld : (∃ c p, a = .issue c p) ∨ a = .wait) (hp : s.program = a :: rest) : step s = blockStep s :=
  step_of_block_alone hst (hostEnabled_of_held hst hheld hp)

/-- Where neither agent may move the state stays as it is (R206). -/
theorem step_of_no_agent {s : State} (hst : s.st ≠ .busy) (hp : s.program = []) : step s = .next s := by
  have hmover : s.mover = none := by
    simp [State.mover, State.contended, State.hostEnabled, State.blockEnabled, hp, hst]
  rw [step_of_reachable (reachable_of_not_busy hst), moverStep, hmover]

theorem blockStep_of_selected {s : State} {i : Instr} (h : s.selected = some i) : blockStep s = exec i s := by
  simp [blockStep, h]

/-! ### The row of a command word -/

/-- An ISSUE is the row its word decodes to (log 10). -/
theorem exec_decodeCommand (c : Word) (p : List Word) (s : State) : exec (decodeCommand c p) s = exec (.issue c p) s := by
  cases hc : decodeOp c with
  | none => rw [decodeCommand, hc]; rfl
  | some op =>
    obtain rfl := (decodeOp_eq_some c op).1 hc
    rw [decodeCommand, hc]
    cases op <;> rfl

/-! ### A placed table word (log 12) -/

/-- The state in which the block is chosen for the next step runs the symbol it selects. -/
theorem step_blockNext {s : State} {i : Instr} (hsel : s.selected = some i) :
    step s.blockNext = exec i s.blockNext.settled := by
  have ⟨hst, _⟩ := selected_cases hsel
  cases hcont : s.contended with
  | true =>
    have hnext : s.blockNext = { s with choices := .block :: s.choices } := by simp [State.blockNext, hcont]
    have hcont' : s.blockNext.contended = true := by rw [hnext]; exact hcont
    have hsel' : s.blockNext.afterChoice.selected = some i := by rw [hnext]; exact hsel
    have hchoice : s.blockNext.choice = .block := choice_of_given (by rw [hnext])
    rw [step_of_chosen_block hcont' hchoice, settled_of_contended hcont', blockStep_of_selected hsel']
  | false =>
    have hhost : s.hostEnabled = false := by simpa [State.contended, State.blockEnabled, hst] using hcont
    have hnext : s.blockNext = s := by simp [State.blockNext, hcont]
    rw [hnext, settled_of_not_contended hcont, step_of_block_alone hst hhost, blockStep_of_selected hsel]

/-- The codes a table word can have: a bit, a command word without payload, or the eight bytes of a record. -/
theorem tableCode_cases {nbits w : Nat} {code : Code} (h : tableCode nbits w = some code) :
    (∃ b, code = .bit b) ∨ (∃ c, code = .cmd [c]) ∨
      ∃ p0 p1 p2 p3 q0 q1 q2 q3, code = .pair [p0, p1, p2, p3, q0, q1, q2, q3] := by
  unfold tableCode at h
  split at h
  · cases h
    exact .inl ⟨_, rfl⟩
  · split at h
    · cases h
      exact .inr (.inl ⟨_, rfl⟩)
    · split at h
      · cases h
        exact .inr (.inr ⟨_, _, _, _, _, _, _, _, rfl⟩)
      · cases h

theorem decodeTableWord_eq_some {nbits w : Nat} {i : Instr} (h : decodeTableWord nbits w = some i) :
    ∃ code, tableCode nbits w = some code ∧ decode code = .ok i := by
  unfold decodeTableWord at h
  split at h
  · rename_i code hcode
    refine ⟨code, hcode, ?_⟩
    cases hd : decode code <;> simp_all [Except.toOption]
  · cases h

/-- A placed command word is run by the host, in a block that is not BUSY. -/
theorem step_of_next_command {s : State} {c : Word} {rest : List HostAction} (hst : s.st ≠ .busy)
    (hp : s.program = .issue c [] :: rest) : step s = exec (decodeCommand c []) s.settled := by
  rw [settled_of_not_contended (not_contended_of_not_busy hst), exec_decodeCommand]
  exact step_of_host_alone hp (by simp [actionEnabled, hst]) hst

theorem selected_of_bit {s : State} (hst : s.st = .busy) (hphase : s.phase = .data)
    (ho : s.opl = some .enc ∨ s.opl = some .encser) (hleft : s.bitsLeft ≠ 0) : s.selected = some (decodeBit s.selectedBit) := by
  rcases ho with ho | ho <;> simp [State.selected, hst, hphase, ho, hleft]

/-- A shift register of equal bits has that bit selected. -/
theorem selectedBit_of_uniform {s : State} (b : BitVec 1) (hleft : s.bitsLeft ≠ 0)
    (hshreg : s.shreg = if b = 1#1 then 0xFF#8 else 0x00#8) : s.selectedBit = b.getLsbD 0 := by
  have huniform : ∀ (b : BitVec 1) (left : Fin 9), left ≠ 0 →
      (if b = 1#1 then 0xFF#8 else 0x00#8 : Byte).getLsbD (left.val - 1) = b.getLsbD 0 := by decide
  rw [State.selectedBit, hshreg, huniform b s.bitsLeft hleft]

/-! ### The stops of a step -/

/-- The positions of a BUSY block to which no case of R145 applies are unreachable (R207; log 7). -/
theorem unreachable_of_position {s : State} (hst : s.st = .busy)
    (hpos : s.phase = .ended ∨ (s.phase = .data ∧ s.opl = some .ser ∧ s.src.length = 1) ∨ s.opl = none ∨
      (s.phase = .leader ∧ s.opl = some .ser) ∨ (s.phase = .trailer ∧ s.opl = some .enc)) : s.unreachable = true := by
  unfold State.unreachable
  obtain hphase | ⟨hphase, ho, hlen⟩ | ho | ⟨hphase, ho⟩ | ⟨hphase, ho⟩ := hpos
  · rw [hst, hphase]
  · obtain ⟨w, hsrc⟩ := List.length_eq_one_iff.1 hlen
    rw [hst, hphase, ho, hsrc]
  · rw [hst, ho]
    cases s.phase <;> rfl
  · rw [hst, hphase, ho]
  · rw [hst, hphase, ho]

/-- No host action faults: it completes or is refused. -/
theorem hostAction_ne_fault (a : HostAction) (s : State) (f : Fault) : exec a.toInstr s ≠ .fault f := by
  cases a with
  | issue | wait | reset => exact nofun
  | rdreg n => cases h : s.readReg n <;> simp [HostAction.toInstr, exec, execRdreg, h]
  | rdout i => cases h : s.outRead i <;> simp [HostAction.toInstr, exec, execRdout, h]

/-- The only fault of a step is that of the unreachable states (R207). -/
theorem unreachable_of_step_fault {s : State} {f : Fault} (h : step s = .fault f) :
    s.unreachable = true ∧ f = .unreachableState := by
  cases hu : s.unreachable with
  | true =>
    rw [step_of_unreachable hu] at h
    cases h
    exact ⟨rfl, rfl⟩
  | false =>
    exfalso
    rw [step_of_reachable hu] at h
    unfold moverStep at h
    split at h
    · unfold hostStep at h
      split at h
      · cases h
      · exact hostAction_ne_fault _ _ f h
    · rename_i hmover
      have hst := busy_of_mover_block hmover
      obtain ⟨t, ht⟩ := blockStep_of_reachable (s := s.settled) (by simpa using hst) (by simpa using hu)
      rw [ht] at h
      cases h
    · cases h

/-! ### The obligations -/

/-- Settles O4: a command word is the host's next action of a block that is not BUSY; a bit or a record is the symbol the block
selects. -/
theorem placedWordIsRunByTheNextStep : Obligations.PlacedWordIsRunByTheNextStep := by
  unfold Obligations.PlacedWordIsRunByTheNextStep
  intro s nbits w i h
  obtain ⟨code, hcode, hdecode⟩ := decodeTableWord_eq_some h
  rw [State.withFetchWord, hcode]
  obtain ⟨b, rfl⟩ | ⟨c, rfl⟩ | ⟨p0, p1, p2, p3, q0, q1, q2, q3, rfl⟩ := tableCode_cases hcode <;> cases hdecode
  · apply step_blockNext
    have ho : (if s.opl = some .encser then some Op.encser else some .enc) = some .enc ∨
        (if s.opl = some .encser then some Op.encser else some .enc) = some .encser := by split <;> simp
    have hleft : (if s.bitsLeft = 0 then 8 else s.bitsLeft) ≠ 0 := by split <;> simp_all
    rw [selected_of_bit rfl rfl ho hleft, selectedBit_of_uniform b hleft rfl]
  · refine step_of_next_command ?_ rfl
    dsimp only
    split <;> simp_all
  · exact step_blockNext rfl

/-- Settles O5: each clause by the agents that may move; the ISSUE by the row of its word. -/
theorem stepRunsTheNextInstruction : Obligations.StepRunsTheNextInstruction := by
  unfold Obligations.StepRunsTheNextInstruction
  refine ⟨fun s a rest => step_of_host_alone, ?_, ?_, ?_, ?_, ?_, ?_, ?_, fun s c p => (exec_decodeCommand c p s).symm⟩
  · intro s i hst hhost hsel
    rw [step_of_block_alone hst hhost, blockStep_of_selected hsel]
  · intro s hst hhost hsel
    rw [step_of_block_alone hst hhost, blockStep_of_none hsel]
  · intro s a rest cs hp hen hst hu hcs
    rw [step_of_chosen_host hp (contended_of_enabled hp hen hst) hu (choice_of_given hcs), afterChoice_of_given hcs]
  · intro s i a rest cs hp hen hst hcs hsel
    rw [step_of_chosen_block (contended_of_enabled hp hen hst) (choice_of_given hcs), blockStep_of_selected (by simpa using hsel),
      afterChoice_of_given hcs]
  · intro s a rest cs hp hen hst hcs hsel
    rw [step_of_chosen_block (contended_of_enabled hp hen hst) (choice_of_given hcs), blockStep_of_none (by simpa using hsel),
      afterChoice_of_given hcs]
  · intro s i a rest hp hen hst hcs hsel
    have h := step_of_contended hp (contended_of_enabled hp hen hst) (reachable_of_selected hsel)
    rwa [blockStep_of_selected (by simpa using hsel), afterChoice_of_free hcs] at h
  · intro s a rest hp hen hst hu hcs hsel
    have h := step_of_contended hp (contended_of_enabled hp hen hst) hu
    rwa [blockStep_of_none (by simpa using hsel), afterChoice_of_free hcs] at h

/-- Settles O31: the tabled positions are those of `State.unreachable`, the step and the block step fault there, and no running job is
at one. -/
theorem unreachableStatesFault : Obligations.UnreachableStatesFault := by
  unfold Obligations.UnreachableStatesFault
  refine ⟨fun s => unreachable_of_position, fun s hu => ?_, fun s => blockStep_of_reachable⟩
  have hst : s.st = .busy := by
    by_contra hst
    simp [reachable_of_not_busy hst] at hu
  refine ⟨hst, step_of_unreachable hu, (blockStep_of_unreachable hu).2, fun hinv => ?_⟩
  simp [reachable_of_running (running_of_inv hinv hst)] at hu

/-- Settles O53: with no action the host is not enabled either; a step that discards nothing keeps the block or is a block step, and a
block step needs ST = BUSY. -/
theorem idleBlockKeepsItsState : Obligations.IdleBlockKeepsItsState := by
  unfold Obligations.IdleBlockKeepsItsState
  intro s hst
  refine ⟨step_of_no_agent hst, fun t ht hd => ?_, fun t ht => ?_⟩
  · obtain hsame | ⟨hbusy, -⟩ := step_keeps_or_blockSteps ht hd
    · exact hsame
    · exact absurd hbusy hst
  · have ⟨hbusy, _⟩ := blockStep_cases ht
    exact hst hbusy

end Sys2Proof.Machine
end

section
/-!
PROOFS. The statements about runs of the machine (10_state.md R35; 20_memory.md R58; 42_job_control.md R155 to R157): the invariant and
its consequences. ISSUE, RESET and the block steps write the block; every other step leaves it as it is.
-/

namespace Sys2Proof.Machine

/-! ### What is read off the block alone -/

section SameBlock
variable {s t : State} (h : sameBlock s t)
include h

theorem sameBlock_symm : sameBlock t s := by
  rw [eq_withHost_of_sameBlock h]
  simp [sameBlock, State.withHost]

theorem inv_of_sameBlock (hs : s.Inv) : t.Inv := by
  rw [eq_withHost_of_sameBlock h]
  exact ⟨hs.status, hs.latched, hs.outputs, hs.symbols, hs.bounded⟩

theorem finalOutput_of_sameBlock : t.finalOutd = s.finalOutd ∧ t.finalOutb = s.finalOutb := by
  rw [eq_withHost_of_sameBlock h]
  exact ⟨rfl, rfl⟩

theorem stepsLeft_of_sameBlock : t.stepsLeft = s.stepsLeft := by
  rw [eq_withHost_of_sameBlock h]
  rfl

end SameBlock

/-! ### The invariant where no job is loaded -/

theorem statusFits_of_idle {s : State} (hst : s.st = .idle) (hclear : s.cleared) (hcmd : s.cmd = 0#32) (herr : s.err = .none) :
    s.statusFits := by
  unfold State.statusFits
  rw [hst]
  exact ⟨hclear, hcmd, herr⟩

theorem statusFits_of_busy {s : State} (hst : s.st = .busy) (hrun : s.running) (herr : s.err = .none) : s.statusFits := by
  unfold State.statusFits
  rw [hst]
  exact ⟨hrun, herr⟩

theorem statusFits_of_error {s : State} (hst : s.st = .error) (hclear : s.cleared) (herr : s.err ≠ .none) : s.statusFits := by
  unfold State.statusFits
  rw [hst]
  exact ⟨hclear, herr⟩

/-- In IDLE and in ERROR, with no operation latched and no output, the invariant is what ST says. -/
theorem inv_of_no_job {s : State} (hst : s.st = .idle ∨ s.st = .error) (hstatus : s.statusFits) (houtd : s.outd = [])
    (houtb : s.outb = []) : s.Inv := by
  have hbusy : s.st ≠ .busy := by rcases hst with hst | hst <;> simp [hst]
  have hdone : s.st ≠ .done := by rcases hst with hst | hst <;> simp [hst]
  obtain ⟨ho, -⟩ := cleared_of_statusFits hstatus hst
  exact {
    status := hstatus
    latched := by simp [ho]
    outputs := ⟨fun _ => houtd, fun _ => houtb⟩
    symbols := ⟨by simp [houtd], fun h => absurd h hbusy, fun h => absurd h hdone⟩
    bounded := by simp [State.outputBounded, finalOutd_of_not_busy hbusy, finalOutb_of_not_busy hbusy, houtd, houtb] }

theorem reset_inv : State.reset.Inv :=
  inv_of_no_job (.inl rfl) (statusFits_of_idle rfl ⟨rfl, rfl, rfl, rfl, rfl⟩ rfl rfl) rfl rfl

theorem failed_inv (s : State) (c : Word) {e : ErrCode} (he : e ≠ .none) : ((s.latch c).failIssue e).retire.Inv :=
  inv_of_no_job (.inr rfl) (statusFits_of_error rfl ⟨rfl, rfl, rfl, rfl, rfl⟩ he) rfl rfl

/-! ### The invariant of an accepted job -/

/-- The output of a job of at most `m` payload words (R105, R125, R127). -/
theorem jobOutputs_length_le {m : Nat} {op : Op} {p : List Word} (hp : payloadError m op p = none) :
    (jobOutputs op p).1.length ≤ 2 + 16 * m ∧ (jobOutputs op p).2.length ≤ 64 * m + 12 := by
  obtain ⟨hlen, -, heven⟩ := payloadError_eq_none.1 hp
  cases op with
  | enc =>
    simp only [jobOutputs, encodePulses_length, payloadBytes, List.length_map, List.length_nil]
    omega
  | encser =>
    simp only [jobOutputs_encser, encodedBuffer_length, payloadBytes, List.length_map, List.length_nil]
    omega
  | ser =>
    simp only [jobOutputs_ser (heven rfl), recordBuffer_length, pairsOf_length, List.length_nil]
    omega

theorem accepted_inv (s : State) {op : Op} {p : List Word} (hp : payloadError Config.maxItems op p = none) :
    ((s.latch (cmdWord op)).accept op p).retire.Inv where
  status := statusFits_of_busy rfl (accepted_running s (cmdWord op) hp) rfl
  latched op' h := by
    cases h
    rfl
  outputs := ⟨fun _ => rfl, fun _ => rfl⟩
  symbols := (accepted_yields s (cmdWord op) hp).symbols
  bounded := by
    have hbound := jobOutputs_length_le hp
    rw [← accepted_finalOutput s (cmdWord op) hp] at hbound
    exact hbound

/-- However an ISSUE ends, the invariant holds. -/
theorem issueAction_keeps_inv (c : Word) (p : List Word) {s : State} (hs : s.Inv) :
    (issueAction Config.maxItems c p s).Inv := by
  obtain ⟨-, ht⟩ | ⟨-, e, -, he, ht⟩ | ⟨-, op, rfl, hp, ht⟩ := issueAction_cases Config.maxItems c p s
  · rwa [ht]
  · rw [ht]
    exact failed_inv s c he
  · rw [ht]
    exact accepted_inv s hp

/-! ### The block step keeps the invariant -/

theorem err_of_inv {s : State} (h : s.Inv) (hst : s.st = .busy) : s.err = .none := by
  have hstatus := h.status
  unfold State.statusFits at hstatus
  rw [hst] at hstatus
  exact hstatus.2

/-- The block writes ST only where it ends a job (R25). -/
theorem blockStep_st {s t : State} (h : blockStep s = .next t) :
    t.st = s.st ∨ (s.st = .busy ∧ t.st = .done ∧ t.phase = .ended) := by
  obtain ⟨hst, ⟨-, -, rfl⟩ | ⟨-, -, -, rfl⟩ | ⟨w, rest, -, -, -, -, rfl⟩ | ⟨-, -, -, -, rfl⟩ | ⟨-, -, -, -, rfl⟩ |
    ⟨-, -, -, rfl⟩ | ⟨p, q, rest, -, -, -, rfl⟩ | ⟨-, -, rfl⟩⟩ := blockStep_cases h <;> simp [hst]

/-- The block step that ends a job leaves the sequencer at its end (R35). -/
theorem blockStep_ends_job {s t : State} (h : blockStep s = .next t) (hrun : s.running) (htst : t.st ≠ .busy) :
    t.st = .done ∧ t.opl ≠ none ∧ t.src = [] ∧ t.phase = .ended ∧ t.bitsLeft = 0 := by
  obtain ⟨hst, ⟨-, -, rfl⟩ | ⟨-, -, -, rfl⟩ | ⟨w, rest, -, -, -, -, rfl⟩ | ⟨-, ho, hleft, hsrc, rfl⟩ | ⟨-, -, -, -, rfl⟩ |
    ⟨-, -, -, rfl⟩ | ⟨p, q, rest, -, -, -, rfl⟩ | ⟨hphase, ho, rfl⟩⟩ := blockStep_cases h
  case inr.inr.inr.inl => simp [ho, hleft, hsrc]
  case inr.inr.inr.inr.inr.inr.inr =>
    unfold State.running at hrun
    rcases ho with ho | ho <;> rw [hphase, ho] at hrun <;> simp [ho, hrun]
  all_goals simp [hst] at htst

theorem blockStep_keeps_statusFits {s t : State} (h : blockStep s = .next t) (hs : s.Inv) : t.statusFits := by
  have ⟨hst, _⟩ := blockStep_cases h
  have hrun := running_of_inv hs hst
  obtain ⟨-, herr, -⟩ := blockStep_keeps_registers h
  have hnone : t.err = .none := herr.trans (err_of_inv hs hst)
  by_cases htst : t.st = .busy
  · exact statusFits_of_busy htst (running_of_onCourse (blockStep_keeps_course h (.inl ⟨hst, hrun⟩)).1 htst) hnone
  · obtain ⟨hdone, ho, hsrc, hphase, hleft⟩ := blockStep_ends_job h hrun htst
    unfold State.statusFits
    rw [hdone]
    exact ⟨ho, hsrc, hphase, hleft, hnone⟩

/-- A block step writes the output list of its mode only (R33, R34). -/
theorem blockStep_keeps_outputFits {s t : State} (h : blockStep s = .next t) (hrun : s.running) (hs : s.outputFits) :
    t.outputFits := by
  obtain ⟨-, -, hopl⟩ := blockStep_keeps_registers h
  obtain ⟨qs, -, henc, hbytes⟩ := blockStep_moves_pairs h hrun
  obtain ⟨houtd, houtb⟩ := hs
  unfold State.outputFits
  rw [hopl]
  refine ⟨fun ho => ?_, fun ho => ?_⟩
  · rw [(hbytes ho).1, houtd ho]
  · obtain hnone | ho := ho
    · simp [State.running, hnone] at hrun
    · rw [(henc ho).2, houtb (.inr ho)]

theorem blockStep_keeps_inv {s t : State} (h : blockStep s = .next t) (hs : s.Inv) : t.Inv := by
  have ⟨hst, _⟩ := blockStep_cases h
  have hrun := running_of_inv hs hst
  obtain ⟨hcmd, -, hopl⟩ := blockStep_keeps_registers h
  obtain ⟨hfinald, hfinalb⟩ := blockStep_keeps_finalOutput h hrun
  exact {
    status := blockStep_keeps_statusFits h hs
    latched := by
      rw [hcmd, hopl]
      exact hs.latched
    outputs := blockStep_keeps_outputFits h hrun hs.outputs
    symbols := blockStep_keeps_wholeSymbols h hrun hs.symbols
    bounded := by
      unfold State.outputBounded
      rw [hfinald, hfinalb]
      exact hs.bounded }

/-! ### The step keeps the invariant -/

theorem settled_inv {s : State} (hs : s.Inv) : s.settled.Inv := inv_of_sameBlock (sameBlock_settled s) hs

/-- A host action but ISSUE and RESET is none on the block. -/
theorem sameBlock_of_read_or_wait {a : HostAction} {s t : State} (h : exec a.toInstr s = .next t) (hkeep : discards a = false) :
    sameBlock s t := by
  obtain ⟨c, p, rfl, -⟩ | ⟨rfl, -⟩ | ⟨-, rfl⟩ | ⟨r, -, rfl⟩ | ⟨r, -, rfl⟩ := hostAction_cases h
  · cases hkeep
  · cases hkeep
  · split
    · simp [sameBlock]
    · exact sameBlock_retire s
  · exact sameBlock_respond_retire s r
  · exact sameBlock_respond_retire s r

theorem hostAction_keeps_inv {a : HostAction} {s t : State} (h : exec a.toInstr s = .next t) (hs : s.Inv) : t.Inv := by
  cases a with
  | issue c p =>
    cases h
    exact issueAction_keeps_inv c p hs
  | reset =>
    cases h
    exact inv_of_sameBlock (sameBlock_symm (sameBlock_reset s)) reset_inv
  | wait | rdreg | rdout => exact inv_of_sameBlock (sameBlock_of_read_or_wait h rfl) hs

theorem step_keeps_inv {s t : State} (hs : s.Inv) (h : step s = .next t) : t.Inv := by
  obtain ⟨-, -, rfl⟩ | ⟨a, rest, -, -, -, h⟩ | ⟨-, -, h⟩ := step_cases h
  · exact hs
  · exact hostAction_keeps_inv h (settled_inv hs)
  · exact blockStep_keeps_inv h (settled_inv hs)

theorem reachable_of_inv {s : State} (hs : s.Inv) : s.unreachable = false := by
  by_cases hst : s.st = .busy
  · exact reachable_of_running (running_of_inv hs hst)
  · exact reachable_of_not_busy hst

theorem step_ne_fault_of_inv {s : State} (hs : s.Inv) (f : Fault) : step s ≠ .fault f := by
  intro h
  obtain ⟨hu, -⟩ := unreachable_of_step_fault h
  simp [reachable_of_inv hs] at hu

/-! ### The end of a job -/

/-- What a BUSY machine has still to do: the block's steps and the host's actions. -/
def State.workLeft (s : State) : Nat := s.stepsLeft + s.program.length

/-- A read uses up an action; the other actions a BUSY block lets the host take is RESET, which ends the job. -/
theorem hostAction_uses_work {a : HostAction} {rest : List HostAction} {s t : State} (hst : s.st = .busy)
    (hp : s.program = a :: rest) (hen : actionEnabled s a = true) (h : exec a.toInstr s.settled = .next t)
    (htst : t.st = .busy) : s.workLeft = t.workLeft + 1 := by
  obtain ⟨c, p, rfl, -⟩ | ⟨rfl, rfl⟩ | ⟨rfl, -⟩ | ⟨r, -, rfl⟩ | ⟨r, -, rfl⟩ := hostAction_cases h
  · simp [actionEnabled, hst] at hen
  · cases htst
  · simp [actionEnabled, hst] at hen
  all_goals
    have hleft := stepsLeft_of_sameBlock (sameBlock_respond_retire s.settled r)
    rw [stepsLeft_of_sameBlock (sameBlock_settled s)] at hleft
    simp only [State.workLeft, hleft, hp, respond_program, retire_program, settled_program, List.tail_cons, List.length_cons]
    omega

theorem blockStep_keeps_program {s t : State} (h : blockStep s = .next t) : t.program = s.program := by
  obtain ⟨-, ⟨-, -, rfl⟩ | ⟨-, -, -, rfl⟩ | ⟨w, rest, -, -, -, -, rfl⟩ | ⟨-, -, -, -, rfl⟩ | ⟨-, -, -, -, rfl⟩ |
    ⟨-, -, -, rfl⟩ | ⟨p, q, rest, -, -, -, rfl⟩ | ⟨-, -, rfl⟩⟩ := blockStep_cases h <;> simp

theorem step_uses_work {s t : State} (hs : s.Inv) (hst : s.st = .busy) (h : step s = .next t) (htst : t.st = .busy) :
    s.workLeft = t.workLeft + 1 := by
  obtain ⟨-, hidle, -⟩ | ⟨a, rest, -, hp, hen, h⟩ | ⟨-, -, h⟩ := step_cases h
  · exact absurd hst hidle
  · exact hostAction_uses_work hst hp hen h htst
  · have hrun := running_of_inv (settled_inv hs) (by simpa using hst)
    obtain ⟨-, hleft⟩ := blockStep_keeps_course h (.inl ⟨by simpa using hst, hrun⟩)
    rw [stepsLeft_of_sameBlock (sameBlock_settled s)] at hleft
    have hprogram := blockStep_keeps_program h
    rw [settled_program] at hprogram
    rw [State.workLeft, State.workLeft, hprogram, hleft]
    omega

theorem run_succ_of_next {s t : State} (h : step s = .next t) (n : Nat) : run (n + 1) s = run n t := by
  have hcore : Sys2Proof.core.step s = .next t := h
  simp only [run, Host.Core.run, hcore]
  rfl

theorem run_succ_of_refused {s : State} {r : Refusal} (h : step s = .refused r) (n : Nat) : run (n + 1) s = .refused r := by
  have hcore : Sys2Proof.core.step s = .refused r := h
  simp only [run, Host.Core.run, hcore]
  rfl

/-- A BUSY machine comes to an end of its job, or to a refused read, within the work it has left. -/
theorem run_ends_job {w : Nat} {s : State} (hs : s.Inv) (hst : s.st = .busy) (hw : s.workLeft ≤ w) :
    ∃ n, n ≤ w ∧ ((∃ t, run n s = .next t ∧ t.st ≠ .busy) ∨ ∃ r, run n s = .refused r) := by
  induction w generalizing s with
  | zero =>
    have hpos := stepsLeft_pos_of_running hst (running_of_inv hs hst)
    unfold State.workLeft at hw
    omega
  | succ w ih =>
    cases h : step s with
    | fault f => exact absurd h (step_ne_fault_of_inv hs f)
    | refused r => exact ⟨1, by omega, .inr ⟨r, run_succ_of_refused h 0⟩⟩
    | next t =>
      by_cases htst : t.st = .busy
      · have hwork := step_uses_work hs hst h htst
        obtain ⟨n, hn, hend⟩ := ih (step_keeps_inv hs h) htst (by omega)
        refine ⟨n + 1, by omega, ?_⟩
        rwa [run_succ_of_next h]
      · exact ⟨1, by omega, .inl ⟨t, run_succ_of_next h 0, htst⟩⟩

/-! ### The obligations -/

/-- Settles O45: the reset state holds no job and no output. -/
theorem resetMeetsTheInvariant : Obligations.ResetMeetsTheInvariant := reset_inv

/-- Settles O46: by what the step is: a read or WAIT keeps the block, ISSUE and RESET write a new one, and the block step keeps each
clause. -/
theorem stepKeepsTheInvariant : Obligations.StepKeepsTheInvariant := by
  unfold Obligations.StepKeepsTheInvariant
  exact fun s t => step_keeps_inv

/-- Settles O48: a state that meets the invariant is no unreachable one, and a step has no other fault. -/
theorem invariantStatesDoNotFault : Obligations.InvariantStatesDoNotFault := by
  unfold Obligations.InvariantStatesDoNotFault
  exact fun s f hs => step_ne_fault_of_inv hs f

/-- Settles O49: such a step keeps the block, or is a block step, which moves pairs from those still to emit to the output. -/
theorem finalOutputIsFixedWhileTheJobRuns : Obligations.FinalOutputIsFixedWhileTheJobRuns := by
  unfold Obligations.FinalOutputIsFixedWhileTheJobRuns
  intro s t hs ht hd
  obtain hsame | ⟨hst, hb⟩ := step_keeps_or_blockSteps ht hd
  · exact finalOutput_of_sameBlock hsame
  · have hrun := running_of_inv (settled_inv hs) (by simpa using hst)
    obtain ⟨hfinald, hfinalb⟩ := blockStep_keeps_finalOutput hb hrun
    obtain ⟨hsettledd, hsettledb⟩ := finalOutput_of_sameBlock (sameBlock_settled s)
    exact ⟨hfinald.trans hsettledd, hfinalb.trans hsettledb⟩

/-- Settles O50: an accepted ISSUE leaves the whole job to emit, and a job that is done has nothing left to emit. -/
theorem finalOutputIsTheFunctionsOutput : Obligations.FinalOutputIsTheFunctionsOutput := by
  unfold Obligations.FinalOutputIsTheFunctionsOutput
  refine ⟨fun s t c p op hs hc ht htst => ?_, fun s hst => ?_⟩
  · obtain ⟨hp, rfl⟩ := accepted_of_busy hs hc ht htst
    exact accepted_finalOutput s c hp
  · have hidle : s.st ≠ .busy := by simp [hst]
    exact ⟨finalOutd_of_not_busy hidle, finalOutb_of_not_busy hidle⟩

/-- Settles O52: each step of a BUSY machine takes one of the block's steps or one of the host's actions, and both are finite. -/
theorem everyJobEndsInEveryInterleaving : Obligations.EveryJobEndsInEveryInterleaving := by
  unfold Obligations.EveryJobEndsInEveryInterleaving
  exact fun s hs hst => run_ends_job hs hst le_rfl

/-- Settles O32: only ISSUE and RESET write CMD, ERR and OPL (`step_keeps_or_blockSteps`, `blockStep_keeps_registers`); the block
writes ST where it ends a job. -/
theorem statusRegistersAreWrittenAsTabled : Obligations.StatusRegistersAreWrittenAsTabled := by
  unfold Obligations.StatusRegistersAreWrittenAsTabled
  refine ⟨fun s t ht hd => ?_, fun s t c p hs ht => ?_, fun s t ht => ?_⟩
  · obtain ⟨hcmd, hst, herr, hopl, -⟩ | ⟨hst, hb⟩ := step_keeps_or_blockSteps ht hd
    · exact ⟨hcmd.symm, herr.symm, hopl.symm, .inl hst.symm⟩
    · obtain ⟨hcmd, herr, hopl⟩ := blockStep_keeps_registers hb
      refine ⟨by simpa using hcmd, by simpa using herr, by simpa using hopl, ?_⟩
      obtain hsame | ⟨-, hdone, -⟩ := blockStep_st hb
      · exact .inl (by simpa using hsame)
      · exact .inr ⟨hst, hdone⟩
  · rw [exec_issue] at ht
    cases ht
    obtain ⟨hb, -⟩ | ⟨-, e, -, he, ht⟩ | ⟨-, op, rfl, -, ht⟩ := issueAction_cases Config.maxItems c p s
    · exact absurd hb hs
    · simp [ht, he]
    · simp [ht]
  · obtain ⟨hcmd, herr, hopl⟩ := blockStep_keeps_registers ht
    exact ⟨hcmd, herr, hopl, blockStep_st ht⟩

/-- Settles O34: at each position of the sequencer, the next one. -/
theorem sequencerMovesOnlyForward : Obligations.SequencerMovesOnlyForward := by
  unfold Obligations.SequencerMovesOnlyForward
  intro rank s t h
  obtain ⟨-, ⟨hphase, -, rfl⟩ | ⟨hphase, -, -, rfl⟩ | ⟨w, rest, hphase, -, -, hsrc, rfl⟩ | ⟨hphase, -, -, -, rfl⟩ |
    ⟨hphase, -, -, -, rfl⟩ | ⟨hphase, -, -, rfl⟩ | ⟨p, q, rest, hphase, -, hsrc, rfl⟩ | ⟨hphase, -, rfl⟩⟩ := blockStep_cases h
  case inr.inr.inl => simp [hphase, hsrc]
  case inr.inr.inr.inr.inr.inr.inl => exact ⟨le_rfl, hsrc ▸ List.suffix_append [p, q] rest⟩
  all_goals simp [rank, hphase]

end Sys2Proof.Machine
end

section
/-!
PROOFS. The statements about the commands and the host's other actions (42_job_control.md R141 to R144, R151 to R153;
60_exceptions.md R192 to R194): ISSUE reports its first error or starts its job, and it is held while the block is BUSY.
-/

namespace Sys2Proof.Machine

/-! ### The errors of a payload (R192, R194) -/

/-- A word fails format IN8 by a bit of 31:8 that is set (R74). -/
theorem isIn8_eq_false_iff (w : Word) : isIn8 w = false ↔ w.extractLsb' 8 24 ≠ 0#24 := by
  simp [isIn8]

theorem isIn8_eq_true_iff (w : Word) : isIn8 w = true ↔ w.extractLsb' 8 24 = 0#24 := by
  simp [isIn8]

/-- ENCSER and ENC take bytes, SER does not (R72). -/
theorem takesBytes_iff_ne_ser (op : Op) : takesBytes op = true ↔ op ≠ .ser := by
  cases op <;> simp [takesBytes]

section PayloadError
variable {m : Nat} {op : Op} {p : List Word}

theorem payloadError_of_tooLong (hlen : p.length > m) : payloadError m op p = some .tooLong := if_pos hlen

theorem payloadError_of_badInput (hlen : ¬ p.length > m) (hop : op ≠ .ser) (hbad : ∃ w ∈ p, w.extractLsb' 8 24 ≠ 0#24) :
    payloadError m op p = some .badInput := by
  have hany : (takesBytes op && p.any fun w => !isIn8 w) = true := by
    simpa [(takesBytes_iff_ne_ser op).2 hop, isIn8_eq_false_iff] using hbad
  rw [payloadError, if_neg hlen, if_pos hany]

theorem payloadError_of_oddLength (hlen : ¬ p.length > m) (hodd : p.length % 2 = 1) : payloadError m .ser p = some .oddLength := by
  rw [payloadError, if_neg hlen, if_neg (by simp [takesBytes]), if_pos ⟨rfl, hodd⟩]

/-- A payload that fits and has its operation's format has no error. -/
theorem payloadError_of_format (hlen : ¬ p.length > m) (hbytes : op ≠ .ser → ∀ w ∈ p, w.extractLsb' 8 24 = 0#24)
    (heven : op = .ser → p.length % 2 = 0) : payloadError m op p = none := by
  refine payloadError_eq_none.2 ⟨Nat.le_of_not_lt hlen, fun htakes w hw => ?_, heven⟩
  exact (isIn8_eq_true_iff w).2 (hbytes ((takesBytes_iff_ne_ser op).1 htakes) w hw)

end PayloadError

/-! ### ISSUE by what its word and payload are -/

theorem issueError_of_illegal {m : Nat} {c : Word} {p : List Word} (hc : decodeOp c = none) :
    issueError m c p = some .illegalCmd := by
  rw [issueError, hc]

/-- An ISSUE without an error starts its job (R141). -/
theorem issueAction_of_accept {m : Nat} {op : Op} {p : List Word} {s : State} (hs : s.st ≠ .busy)
    (hp : payloadError m op p = none) : issueAction m (cmdWord op) p s = ((s.latch (cmdWord op)).accept op p).retire := by
  rw [issueAction_not_busy hs, issueTransition_eq, issueError_cmdWord, hp, decodeOp_cmdWord]

/-- The row of an operation's word reports the error of its payload. -/
theorem issueAction_of_payloadError {m : Nat} {op : Op} {p : List Word} {e : ErrCode} {s : State} (hs : s.st ≠ .busy)
    (hp : payloadError m op p = some e) : issueAction m (cmdWord op) p s = ((s.latch (cmdWord op)).failIssue e).retire :=
  issueAction_of_error hs (by rw [issueError_cmdWord, hp])

theorem exec_encser (p : List Word) (s : State) :
    exec (.encser p) s = .next (issueAction Config.maxItems (cmdWord .encser) p s) := rfl

theorem exec_enc (p : List Word) (s : State) : exec (.enc p) s = .next (issueAction Config.maxItems (cmdWord .enc) p s) := rfl

theorem exec_ser (p : List Word) (s : State) : exec (.ser p) s = .next (issueAction Config.maxItems (cmdWord .ser) p s) := rfl

theorem exec_illegal (w : Word) (p : List Word) (s : State) :
    exec (.illegal w p) s = .next (issueAction Config.maxItems w p s) := rfl

theorem cmdWord_eq_three_iff (op : Op) : cmdWord op = 3#32 ↔ op = .ser := by
  cases op <;> decide

/-! ### The other actions -/

theorem exec_wait_of_not_busy {s : State} (hst : s.st ≠ .busy) : exec .wait s = .next s.retire := by
  simp [exec, execWait, hst]

theorem exec_wait_of_busy {s : State} (hst : s.st = .busy) : exec .wait s = .next s := by
  simp [exec, execWait, hst]

/-! ### The obligations -/

/-- Settles O6: by the checks in the order of R141, each failed one an error of `issueAction` (R194), and none of them a job. -/
theorem issueValidatesAndStartsTheJob : Obligations.IssueValidatesAndStartsTheJob := by
  unfold Obligations.IssueValidatesAndStartsTheJob
  intro s c p base failed
  refine ⟨by simp [actionEnabled], _, exec_issue c p s, ?_⟩
  by_cases hst : s.st = .busy
  · rw [if_pos hst, issueAction_busy hst]
    simp [sameBlock]
  rw [if_neg hst]
  by_cases hc : c.extractLsb' 2 30 ≠ 0#30 ∨ c.extractLsb' 0 2 = 0#2
  · rw [if_pos hc, issueAction_of_error hst (issueError_of_illegal ((decodeOp_eq_none_iff_fields c).2 hc))]
    exact sameBlock_symm (sameBlock_retire _)
  rw [if_neg hc]
  obtain ⟨op, hop⟩ := Option.ne_none_iff_exists'.1 (mt (decodeOp_eq_none_iff_fields c).1 hc)
  obtain rfl := (decodeOp_eq_some c op).1 hop
  simp only [ne_eq, cmdWord_eq_three_iff]
  by_cases hlen : p.length > Config.maxItems
  · rw [if_pos hlen, issueAction_of_payloadError hst (payloadError_of_tooLong hlen)]
    exact sameBlock_symm (sameBlock_retire _)
  rw [if_neg hlen]
  by_cases hbad : ¬ op = .ser ∧ ∃ w ∈ p, ¬ w.extractLsb' 8 24 = 0#24
  · rw [if_pos hbad, issueAction_of_payloadError hst (payloadError_of_badInput hlen hbad.1 hbad.2)]
    exact sameBlock_symm (sameBlock_retire _)
  rw [if_neg hbad]
  by_cases hodd : op = .ser ∧ p.length % 2 = 1
  · obtain ⟨rfl, hodd⟩ := hodd
    rw [if_pos ⟨rfl, hodd⟩, issueAction_of_payloadError hst (payloadError_of_oddLength hlen hodd)]
    exact sameBlock_symm (sameBlock_retire _)
  rw [if_neg hodd]
  have hnone : payloadError Config.maxItems op p = none := by
    refine payloadError_of_format hlen (fun hop' w hw => ?_) fun hser => ?_
    · by_contra hw'
      exact hbad ⟨hop', w, hw, hw'⟩
    · by_contra hne
      exact hodd ⟨hser, by omega⟩
  rw [issueAction_of_accept hst hnone]
  cases op <;> exact sameBlock_symm (sameBlock_retire _)

/-- Settles O7: a payload of the row's format has no error. -/
theorem commandRowsStartTheirJobs : Obligations.CommandRowsStartTheirJobs := by
  unfold Obligations.CommandRowsStartTheirJobs
  intro s p hst hlen started
  rw [exec_encser, exec_enc, exec_ser]
  refine ⟨fun hbytes => ?_, fun hbytes => ?_, fun heven => ?_⟩
  · rw [issueAction_of_accept hst (payloadError_of_format (Nat.not_lt.2 hlen) (fun _ => hbytes) (by simp))]
    rfl
  · rw [issueAction_of_accept hst (payloadError_of_format (Nat.not_lt.2 hlen) (fun _ => hbytes) (by simp))]
    rfl
  · rw [issueAction_of_accept hst (payloadError_of_format (Nat.not_lt.2 hlen) (by simp) fun _ => heven)]
    rfl

/-- Settles O8: a well-formed ILLEGAL row's word decodes to no operation, the first error of R194. -/
theorem illegalWordReportsIllegalCmd : Obligations.IllegalWordReportsIllegalCmd := by
  unfold Obligations.IllegalWordReportsIllegalCmd
  intro s w p hst hwf
  have hnone : decodeOp w = none := by simpa [Instr.wf] using hwf
  rw [exec_illegal, issueAction_of_error hst (issueError_of_illegal hnone)]
  rfl

/-- Settles O9: the first check that fails names the error, whatever the later ones would say. -/
theorem commandRowsReportTheFirstError : Obligations.CommandRowsReportTheFirstError := by
  unfold Obligations.CommandRowsReportTheFirstError
  intro s p hst failed
  have hfailed (op : Op) {e : ErrCode} (he : payloadError Config.maxItems op p = some e) :
      Host.Outcome.next (issueAction Config.maxItems (cmdWord op) p s) =
        (.next (failed (cmdWord op) e) : Host.Outcome State Fault Refusal) := by
    rw [issueAction_of_payloadError hst he]
    rfl
  refine ⟨fun hlen => ?_, fun hlen hbad => ?_, fun hlen hodd => ?_⟩
  · exact ⟨hfailed .encser (payloadError_of_tooLong hlen), hfailed .enc (payloadError_of_tooLong hlen),
      hfailed .ser (payloadError_of_tooLong hlen)⟩
  · exact ⟨hfailed .encser (payloadError_of_badInput (Nat.not_lt.2 hlen) (by decide) hbad),
      hfailed .enc (payloadError_of_badInput (Nat.not_lt.2 hlen) (by decide) hbad)⟩
  · exact hfailed .ser (payloadError_of_oddLength (Nat.not_lt.2 hlen) hodd)

/-- Settles O10: every row is an `issueAction`, which a BUSY block holds; the step is then the block's. -/
theorem issueHoldsWhileBusy : Obligations.IssueHoldsWhileBusy := by
  unfold Obligations.IssueHoldsWhileBusy
  intro s c p hst
  simp only [exec_issue, exec_encser, exec_enc, exec_ser, exec_illegal, issueAction_busy hst, true_and]
  exact fun rest => step_of_held hst (.inl ⟨c, p, rfl⟩)

/-- Settles O13: a BUSY block holds WAIT, and the step is then the block's. -/
theorem waitCompletesOnlyWhenNotBusy : Obligations.WaitCompletesOnlyWhenNotBusy := by
  unfold Obligations.WaitCompletesOnlyWhenNotBusy
  exact ⟨fun s => exec_wait_of_not_busy, fun s hst => ⟨exec_wait_of_busy hst, fun rest => step_of_held hst (.inr rfl)⟩⟩

/-- Settles O17: a read retires its action and appends its answer; RESET and ISSUE write the block and retire theirs. -/
theorem hostSideOfTheActions : Obligations.HostSideOfTheActions := by
  unfold Obligations.HostSideOfTheActions
  refine ⟨fun s n v => exec_rdreg_of_some, fun s i r => exec_rdout_of_some, fun s t ht => ?_, fun s t c p hst ht => ?_⟩
  · rw [exec_reset] at ht
    cases ht
    simp [sameHost]
  · rw [exec_issue] at ht
    cases ht
    obtain ⟨hbusy, -⟩ | ⟨-, e, -, -, ht⟩ | ⟨-, op, -, -, ht⟩ := issueAction_cases Config.maxItems c p s
    · exact absurd hbusy hst
    · simp [ht, sameHost]
    · simp [ht, sameHost]

/-- Settles O19: such an action is held, retired, or retired with an answer. -/
theorem readsAndWaitChangeNothingInTheBlock : Obligations.ReadsAndWaitChangeNothingInTheBlock := by
  unfold Obligations.ReadsAndWaitChangeNothingInTheBlock
  intro i s t hi h
  obtain ⟨a, rfl, hkeep⟩ : ∃ a : HostAction, i = a.toInstr ∧ discards a = false := by
    obtain rfl | ⟨n, rfl⟩ | ⟨n, rfl⟩ := hi
    exacts [⟨.wait, rfl, rfl⟩, ⟨.rdreg n, rfl, rfl⟩, ⟨.rdout n, rfl, rfl⟩]
  refine ⟨sameBlock_of_read_or_wait h hkeep, ?_⟩
  obtain ⟨c, p, rfl, -⟩ | ⟨rfl, -⟩ | ⟨-, rfl⟩ | ⟨r, -, rfl⟩ | ⟨r, -, rfl⟩ := hostAction_cases h
  · cases hkeep
  · cases hkeep
  · split <;> simp
  · simp
  · simp

/-- Settles O20: STATUS and ERR are zero extensions of their fields (R25, R26). -/
theorem reservedStatusBitsReadZero : Obligations.ReservedStatusBitsReadZero := by
  unfold Obligations.ReservedStatusBitsReadZero
  intro s
  have hstatus : s.statusWord.extractLsb' 2 30 = 0#30 ∧ s.statusWord.extractLsb' 0 2 = s.st.code := by
    unfold State.statusWord
    cases s.st <;> decide
  have herr : s.errWord.extractLsb' 4 28 = 0#28 ∧ s.errWord.extractLsb' 0 4 = errCode s.err ∧ (errCode s.err).toNat ≤ 4 := by
    unfold State.errWord
    cases s.err <;> decide
  exact ⟨hstatus.1, hstatus.2, herr⟩

end Sys2Proof.Machine
end

section
/-!
PROOFS. The statements about the symbols (40_pulse_encoder.md R101 to R103, 41_buffer_serializer.md R121, R122): a selected symbol's
meaning is the block step, and an unselected one stops.
-/

namespace Sys2Proof.Machine

/-! ### The selected symbol is the block step -/

theorem selected_of_leader {s : State} (hst : s.st = .busy) (hphase : s.phase = .leader)
    (ho : s.opl = some .enc ∨ s.opl = some .encser) : s.selected = some .leader := by
  rcases ho with ho | ho <;> simp [State.selected, hst, hphase, ho]

theorem selected_of_trailer {s : State} (hst : s.st = .busy) (hphase : s.phase = .trailer)
    (ho : s.opl = some .encser ∨ s.opl = some .ser) : s.selected = some .trailer := by
  rcases ho with ho | ho <;> simp [State.selected, hst, hphase, ho]

theorem selectedPair_of_record {s : State} {p q : Word} {rest : List Word} (hst : s.st = .busy) (hphase : s.phase = .data)
    (ho : s.opl = some .ser) (hsrc : s.src = p :: q :: rest) : s.selectedPair = some (p, q) := by
  simp [State.selectedPair, State.selected, hst, hphase, ho, hsrc]

/-- In the byte modes REC of the selected pair is the block step, whichever symbol the pair is (log 8). -/
theorem exec_record_of_pair {s : State} {p q : Dur} (ho : s.opl ≠ some .enc) (h : s.selectedPair = some (p, q)) :
    exec (.record p q) s = blockStep s := by
  rw [blockStep_of_pair h, emit_of_bytes p q ho]
  simp [exec, execRecord, ho, h]

/-- REC of a selected symbol's pair is that symbol. -/
theorem exec_record_of_selected {s : State} {i : Instr} {p q : Dur} (ho : s.opl = some .encser) (hsel : s.selected = some i)
    (hpair : s.selectedPair = some (p, q)) : exec (.record p q) s = exec i s := by
  rw [exec_record_of_pair (by simp [ho]) hpair, blockStep_of_selected hsel]

section Bit
variable {s : State} {b : Bool} (hst : s.st = .busy) (hphase : s.phase = .data)
include hst hphase

/-- The bit symbol of the selected bit's value is the block step. -/
theorem exec_bit_of_selectedBit (ho : s.opl = some .enc ∨ s.opl = some .encser) (hleft : s.bitsLeft ≠ 0)
    (hbit : s.selectedBit = b) :
    exec (decodeBit b) s = .next { s.emit bitPulse (bitSpace b) with bitsLeft := bitsDown s.bitsLeft } := by
  rw [← blockStep_of_selected (hbit ▸ selected_of_bit hst hphase ho hleft), blockStep_at_bit hst hphase ho hleft, hbit]

theorem exec_bit_of_enc (ho : s.opl = some .enc) (hleft : s.bitsLeft ≠ 0) (hbit : s.selectedBit = b) :
    exec (decodeBit b) s =
      .next { s with bitsLeft := bitsDown s.bitsLeft, outd := s.outd ++ [bitPulse, bitSpace b] } := by
  rw [exec_bit_of_selectedBit hst hphase (.inl ho) hleft hbit, emit_of_enc _ _ ho]

theorem exec_bit_of_encser (ho : s.opl = some .encser) (hleft : s.bitsLeft ≠ 0) (hbit : s.selectedBit = b) :
    exec (decodeBit b) s =
      .next { s with bitsLeft := bitsDown s.bitsLeft, outb := s.outb ++ recordBytes bitPulse (bitSpace b) } := by
  rw [exec_bit_of_selectedBit hst hphase (.inr ho) hleft hbit, emit_of_bytes _ _ (by simp [ho])]

end Bit

/-! ### The unselected symbol stops -/

/-- A symbol other than REC stops in every position that does not select it. -/
theorem exec_symbol_of_unselected {i : Instr} {s : State} (hi : i = .leader ∨ i = .bit0 ∨ i = .bit1 ∨ i = .trailer)
    (h : s.selected ≠ some i) : exec i s = .fault .notSelected := by
  obtain rfl | rfl | rfl | rfl := hi <;> exact if_neg h

theorem exec_record_of_unselected {s : State} {p q : Dur} (h : s.opl = some .enc ∨ s.selectedPair ≠ some (p, q)) :
    exec (.record p q) s = .fault .notSelected := by
  refine if_neg ?_
  rintro ⟨ho, hpair⟩
  exact h.elim ho fun hne => hne hpair

/-- The two ways a symbol can have been selected when it gives a next state: itself, or for REC its pair. -/
theorem selected_of_symbol {i : Instr} {s t : State}
    (hi : i = .leader ∨ i = .bit0 ∨ i = .bit1 ∨ (∃ p q, i = .record p q) ∨ i = .trailer) (h : exec i s = .next t) :
    s.selected = some i ∨ ∃ p q, i = .record p q ∧ s.opl ≠ some .enc ∧ s.selectedPair = some (p, q) := by
  by_contra hnot
  obtain ⟨hsel, hpair⟩ := not_or.1 hnot
  have hstop : exec i s = .fault .notSelected := by
    obtain hi | hi | hi | ⟨p, q, rfl⟩ | hi := hi
    case inr.inr.inr.inl =>
      refine exec_record_of_unselected ?_
      by_contra hguard
      obtain ⟨ho, hp⟩ := not_or.1 hguard
      exact hpair ⟨p, q, rfl, ho, not_not.1 hp⟩
    all_goals exact exec_symbol_of_unselected (by simp [hi]) hsel
  rw [hstop] at h
  cases h

/-- A symbol that gives a next state emits the selected pair and moves past it, or it is the trailer. -/
theorem symbol_cases {i : Instr} {s t : State}
    (hi : i = .leader ∨ i = .bit0 ∨ i = .bit1 ∨ (∃ p q, i = .record p q) ∨ i = .trailer) (h : exec i s = .next t) :
    (∃ p q, t = (s.emit p q).advance) ∨
      (i = .trailer ∧ s.opl ≠ some .enc ∧ t = { s with outb := s.outb ++ trailerBytes, phase := .ended, st := .done }) := by
  obtain hsel | ⟨p, q, rfl, ho, hpair⟩ := selected_of_symbol hi h
  · rw [← blockStep_of_selected hsel] at h
    obtain hnone | ⟨p, q, hpair⟩ | htrailer := selected_none_or_pair_or_trailer s
    · simp [hnone] at hsel
    · rw [blockStep_of_pair hpair] at h
      cases h
      exact .inl ⟨p, q, rfl⟩
    · obtain ⟨-, ho⟩ := pendingPairs_of_trailer htrailer
      rw [blockStep_of_trailer htrailer] at h
      cases h
      rw [htrailer] at hsel
      cases hsel
      exact .inr ⟨rfl, ho, rfl⟩
  · rw [exec_record_of_pair ho hpair, blockStep_of_pair hpair] at h
    cases h
    exact .inl ⟨p, q, rfl⟩

/-- Only a record of a SER job takes words off SRC (R149). -/
theorem advance_src_of_bytes {s : State} (ho : s.opl ≠ some .ser) : s.advance.src = s.src := by
  unfold State.advance
  split <;> simp_all

theorem getElem?_of_prefix {α : Type} {l l' : List α} (h : l <+: l') : ∀ k, k < l.length → l'[k]? = l[k]? := by
  obtain ⟨rest, rfl⟩ := h
  exact fun k hk => List.getElem?_append_left hk

/-! ### The obligations -/

/-- Settles O23: the selected LEADER is the block step at the leader. -/
theorem leaderIsEmitted : Obligations.LeaderIsEmitted := by
  unfold Obligations.LeaderIsEmitted
  intro s hst hphase
  have hexec (ho : s.opl = some .enc ∨ s.opl = some .encser) :
      exec .leader s = .next { s.emit leaderPulse leaderSpace with phase := .data } := by
    rw [← blockStep_of_selected (selected_of_leader hst hphase ho), blockStep_at_leader hst hphase ho]
  refine ⟨fun ho => ?_, fun ho => ?_⟩
  · rw [hexec (.inl ho), emit_of_enc _ _ ho]
    rfl
  · rw [hexec (.inr ho), emit_of_bytes _ _ (by simp [ho])]
    rfl

/-- Settles O24: the bit symbol of the selected bit's value is the block step at that bit. -/
theorem bitsAreEmitted : Obligations.BitsAreEmitted := by
  unfold Obligations.BitsAreEmitted
  intro s hst hphase hleft left
  exact ⟨fun ho => exec_bit_of_enc hst hphase ho hleft, fun ho => exec_bit_of_enc hst hphase ho hleft,
    fun ho => exec_bit_of_encser hst hphase ho hleft, fun ho => exec_bit_of_encser hst hphase ho hleft⟩

/-- Settles O25: REC of the selected pair is the block step, and so is the symbol whose pair it is. -/
theorem recordIsWritten : Obligations.RecordIsWritten := by
  unfold Obligations.RecordIsWritten
  refine ⟨fun s p q rest hst hphase ho hsrc => ?_, fun s ho => ⟨fun hsel => ?_, fun hsel => ?_, fun hsel => ?_⟩⟩
  · have hbytes : s.opl ≠ some .enc := by simp [ho]
    rw [exec_record_of_pair hbytes (selectedPair_of_record hst hphase ho hsrc), blockStep_at_record hst hphase ho hsrc,
      emit_of_bytes p q hbytes]
    rfl
  all_goals exact exec_record_of_selected ho hsel (by rw [State.selectedPair, hsel]; rfl)

/-- Settles O26: the selected TRAILER is the block step at the trailer. -/
theorem trailerEndsTheJob : Obligations.TrailerEndsTheJob := by
  unfold Obligations.TrailerEndsTheJob
  intro s hst hphase ho
  rw [← blockStep_of_selected (selected_of_trailer hst hphase ho), blockStep_at_trailer hst hphase ho]
  rfl

/-- Settles O27: Emit and the sequencer's move write the output and the sequencer, and the trailer ends the job. -/
theorem symbolsChangeOnlyOutputAndSequencer : Obligations.SymbolsChangeOnlyOutputAndSequencer := by
  unfold Obligations.SymbolsChangeOnlyOutputAndSequencer
  intro i s t hi h
  obtain ⟨p, q, rfl⟩ | ⟨rfl, ho, rfl⟩ := symbol_cases hi h
  · have houtd := getElem?_of_prefix (outd_prefix_emit s p q)
    have houtb := getElem?_of_prefix (outb_prefix_emit s p q)
    refine ⟨by simp, by simp, by simp, by simp, by simp [sameHost], by simpa using houtd, by simpa using houtb, fun ho => ?_,
      fun ho => ?_, by simp, fun ho => ?_⟩
    · simp [emit_of_enc p q ho]
    · simp [emit_of_bytes p q ho]
    · rw [advance_src_of_bytes (by simpa using ho), emit_src]
  · have houtb := getElem?_of_prefix (List.prefix_append s.outb trailerBytes)
    exact ⟨rfl, rfl, rfl, rfl, ⟨rfl, rfl, rfl, rfl⟩, fun _ _ => rfl, houtb, fun henc => absurd henc ho, fun _ => rfl,
      fun hne => absurd rfl hne, fun _ => rfl⟩

/-- Settles O28: each meaning checks the selection, and the only fault of a step is that of the unreachable states. -/
theorem unselectedSymbolsStop : Obligations.UnselectedSymbolsStop := by
  unfold Obligations.UnselectedSymbolsStop
  refine ⟨fun s => exec_symbol_of_unselected (by simp), fun s => exec_symbol_of_unselected (by simp),
    fun s => exec_symbol_of_unselected (by simp), fun s => exec_symbol_of_unselected (by simp),
    fun s p q => exec_record_of_unselected, fun s h => ?_⟩
  obtain ⟨-, hf⟩ := unreachable_of_step_fault h
  cases hf

end Sys2Proof.Machine
end

section
/-!
PROOFS. The statements about host programs and the host context (30_encoding.md R83, R84; 44_host_context.md): the lines of a program,
the hex decoder, the courses of the device, and the buffer a transmission writes.
-/

namespace Sys2Proof.Machine

/-! ### The numbers of a line (R83) -/

theorem asmWord_of_lt {n : Nat} (h : n < 2 ^ 32) : asmWord n = some (BitVec.ofNat 32 n) := if_pos h

theorem asmWord_of_ge {n : Nat} (h : 2 ^ 32 ≤ n) : asmWord n = none := if_neg (Nat.not_lt.2 h)

theorem asmWords_of_inRange {ws : List Nat} (h : ∀ n ∈ ws, n < 2 ^ 32) : asmWords ws = some (ws.map (BitVec.ofNat 32)) := by
  induction ws with
  | nil => rfl
  | cons n ws ih =>
    obtain ⟨hn, hws⟩ := List.forall_mem_cons.1 h
    simp [asmWords, asmWord_of_lt hn, ih hws]

theorem asmWords_of_outOfRange {ws : List Nat} (h : ∃ n ∈ ws, 2 ^ 32 ≤ n) : asmWords ws = none := by
  induction ws with
  | nil => simp at h
  | cons n ws ih =>
    obtain ⟨k, hk, hout⟩ := h
    obtain rfl | hws := List.mem_cons.1 hk
    · simp [asmWords, asmWord_of_ge hout]
    · simp [asmWords, ih ⟨k, hws, hout⟩]

/-- The words of a list exist exactly where its range check passes. -/
theorem asmWords_isSome (ws : List Nat) : (asmWords ws).isSome = ws.all fun n => n < 2 ^ 32 := by
  by_cases h : ∀ n ∈ ws, n < 2 ^ 32
  · simpa [asmWords_of_inRange h] using h
  · have hout : ∃ n ∈ ws, 2 ^ 32 ≤ n := by simpa using h
    simpa [asmWords_of_outOfRange hout] using hout

theorem word_isSome (cmd : AsmCmd) : cmd.word.isSome = cmd.numbers.all fun n => n < 2 ^ 32 := by
  cases cmd with
  | named op => rfl
  | literal n =>
    by_cases h : n < 2 ^ 32
    · simpa [AsmCmd.word, AsmCmd.numbers, asmWord_of_lt h] using h
    · simpa [AsmCmd.word, AsmCmd.numbers, asmWord_of_ge (Nat.not_lt.1 h)] using h

/-! ### The actions of a line (R84) -/

section AsmIssue
variable {cmd : AsmCmd} {ws : List Nat}

theorem asmIssue_of_words {c : Word} (hc : cmd.word = some c) (hws : ∀ n ∈ ws, n < 2 ^ 32) :
    asmIssue cmd ws = some (.issue c (ws.map (BitVec.ofNat 32))) := by
  simp [asmIssue, hc, asmWords_of_inRange hws]

theorem asmIssue_of_no_command (hc : cmd.word = none) : asmIssue cmd ws = none := by
  simp [asmIssue, hc]

theorem asmIssue_of_outOfRange (hws : ∃ n ∈ ws, 2 ^ 32 ≤ n) : asmIssue cmd ws = none := by
  cases hc : cmd.word <;> simp [asmIssue, hc, asmWords_of_outOfRange hws]

theorem asmIssue_isSome (cmd : AsmCmd) (ws : List Nat) :
    (asmIssue cmd ws).isSome = (cmd.numbers ++ ws).all fun n => n < 2 ^ 32 := by
  rw [List.all_append, ← word_isSome, ← asmWords_isSome]
  cases hc : cmd.word <;> cases hws : asmWords ws <;> simp [asmIssue, hc, hws]

end AsmIssue

section Expand
variable (letters : HexLetters) (s : State)

theorem expandLine_issue (cmd : AsmCmd) (ws : List Nat) :
    expandLine letters s (.issue cmd ws) = (asmIssue cmd ws).map fun a => ⟨[a], none⟩ := rfl

theorem expandLine_run (cmd : AsmCmd) (ws : List Nat) :
    expandLine letters s (.run cmd ws) = (asmIssue cmd ws).map fun a => ⟨[a, .wait], none⟩ := rfl

theorem expandLine_issueHex_of_no_command {cmd : AsmCmd} (hc : cmd.word = none) (text : List Char) :
    expandLine letters s (.issueHex cmd text) = none := by
  simp [expandLine, hc]

theorem expandLine_issueHex_of_bytes {cmd : AsmCmd} {c : Word} {text : List Char} {bs : List Byte} (hc : cmd.word = some c)
    (hd : hexDecode letters text = .ok bs) :
    expandLine letters s (.issueHex cmd text) = some ⟨[.issue c (payloadOf bs)], none⟩ := by
  simp [expandLine, hc, hd]

theorem expandLine_issueHex_of_failure {cmd : AsmCmd} {c : Word} {text : List Char} {f : HexFailure} (hc : cmd.word = some c)
    (hd : hexDecode letters text = .error f) : expandLine letters s (.issueHex cmd text) = some ⟨[], some f⟩ := by
  simp [expandLine, hc, hd]

/-- A line stands for actions exactly where the assembler's range check passes. -/
theorem expandLine_isSome (l : AsmLine) : (expandLine letters s l).isSome = l.inRange := by
  cases l with
  | issue cmd ws | run cmd ws => exact Option.isSome_map.trans (asmIssue_isSome cmd ws)
  | issueHex cmd text =>
    rw [AsmLine.inRange, AsmLine.words, ← word_isSome]
    cases hc : cmd.word with
    | none => rw [expandLine_issueHex_of_no_command letters s hc]; rfl
    | some c =>
      cases hd : hexDecode letters text with
      | ok bs => rw [expandLine_issueHex_of_bytes letters s hc hd]; rfl
      | error f => rw [expandLine_issueHex_of_failure letters s hc hd]; rfl
  | reset | wait | rdreg | rdout | readall => rfl

end Expand

/-! ### The lines of a text -/

theorem assembleLine_eq_some {ts : List Token} {l : AsmLine} (h : assembleLine ts = some l) : l.inRange = true := by
  unfold assembleLine at h
  split at h
  · split at h
    · cases h
      assumption
    · cases h
  · cases h

theorem assembleLine_of_outOfRange {ts : List Token} {l : AsmLine} (hl : lineOf ts = some l) (hr : l.inRange = false) :
    assembleLine ts = none := by
  simp [assembleLine, hl, hr]

section ProgramLines
variable {text : List Char} (rest : List (List Char))

theorem programLines_cons_of_no_tokens (h : tokens text none [] = none) : programLines (text :: rest) = none := by
  simp [programLines, h]

theorem programLines_cons_of_blank (h : tokens text none [] = some []) : programLines (text :: rest) = programLines rest := by
  cases hrest : programLines rest <;> simp [programLines, h, hrest]

theorem programLines_cons_of_tokens {ts : List Token} (h : tokens text none [] = some ts) (hts : ts ≠ []) :
    programLines (text :: rest) = (programLines rest).bind fun ls => (assembleLine ts).map (· :: ls) := by
  cases hrest : programLines rest <;> simp [programLines, h, hrest]

end ProgramLines

/-- Every line of a text that spells a program has passed the range check. -/
theorem inRange_of_mem_programLines {texts : List (List Char)} {ls : List AsmLine} (h : programLines texts = some ls) :
    ∀ l ∈ ls, l.inRange = true := by
  induction texts generalizing ls with
  | nil =>
    cases h
    simp
  | cons text rest ih =>
    match htokens : tokens text none [] with
    | none => simp [programLines_cons_of_no_tokens rest htokens] at h
    | some [] =>
      rw [programLines_cons_of_blank rest htokens] at h
      exact ih h
    | some (t :: ts) =>
      rw [programLines_cons_of_tokens rest htokens (by simp)] at h
      obtain ⟨ls', hrest, h⟩ := Option.bind_eq_some_iff.1 h
      obtain ⟨l, hl, rfl⟩ := Option.map_eq_some_iff.1 h
      exact List.forall_mem_cons.2 ⟨assembleLine_eq_some hl, ih hrest⟩

/-- One text that spells no line keeps the whole text from spelling a program. -/
theorem programLines_of_bad_line {texts : List (List Char)} {text : List Char} {ts : List Token} (hmem : text ∈ texts)
    (htokens : tokens text none [] = some ts) (hts : ts ≠ []) (hbad : assembleLine ts = none) : programLines texts = none := by
  induction texts with
  | nil => cases hmem
  | cons head rest ih =>
    obtain rfl | hrest := List.mem_cons.1 hmem
    · simp [programLines_cons_of_tokens rest htokens hts, hbad]
    · have hnone := ih hrest
      match hhead : tokens head none [] with
      | none => exact programLines_cons_of_no_tokens rest hhead
      | some [] => rw [programLines_cons_of_blank rest hhead, hnone]
      | some (t :: ts') => rw [programLines_cons_of_tokens rest hhead (by simp), hnone, Option.bind_none]

/-! ### HexDecoder (R171, R172) -/

theorem hexGroups_cons_cons_eq_none (letters : HexLetters) (a b : Char) (rest : List Char) :
    hexGroups letters (a :: b :: rest) = none ↔
      hexDigit letters a = none ∨ hexDigit letters b = none ∨ hexGroups letters rest = none := by
  cases ha : hexDigit letters a <;> cases hb : hexDigit letters b <;> cases hr : hexGroups letters rest <;>
    simp [hexGroups, ha, hb, hr]

theorem hexGroups_eq_none_iff (letters : HexLetters) (text : List Char) :
    hexGroups letters text = none ↔ text.length % 2 = 1 ∨ ∃ c ∈ text, hexDigit letters c = none := by
  induction text using List.twoStepInduction with
  | nil => simp [hexGroups]
  | singleton c => simp [hexGroups]
  | cons_cons a b rest ih _ =>
    have hlen : (a :: b :: rest).length % 2 = rest.length % 2 := Nat.add_mod_right rest.length 2
    rw [hexGroups_cons_cons_eq_none, ih, hlen]
    simp only [List.mem_cons, exists_eq_or_imp]
    tauto

/-- Two characters a byte. -/
theorem length_of_hexGroups {letters : HexLetters} {text : List Char} {bs : List Byte} (h : hexGroups letters text = some bs) :
    text.length = 2 * bs.length := by
  induction text using List.twoStepInduction generalizing bs with
  | nil =>
    cases h
    rfl
  | singleton c => cases h
  | cons_cons a b rest ih _ =>
    rw [hexGroups] at h
    split at h
    · rename_i hrest
      cases h
      rw [List.length_cons, List.length_cons, List.length_cons, ih hrest]
      omega
    · cases h

theorem hexDecode_eq_ok {letters : HexLetters} {text : List Char} {bs : List Byte} (h : hexDecode letters text = .ok bs) :
    hexGroups letters text = some bs := by
  unfold hexDecode at h
  split at h
  · cases h
    assumption
  · cases h

theorem exists_hexDecode_error_iff (letters : HexLetters) (text : List Char) :
    (∃ f, hexDecode letters text = .error f) ↔ hexGroups letters text = none := by
  cases h : hexGroups letters text <;> simp [hexDecode, h]

/-! ### The payload of decoded bytes (R80, R84) -/

theorem isIn8_of_byte (b : Byte) : (b.setWidth 32).extractLsb' 8 24 = 0#24 := by
  apply BitVec.eq_of_toNat_eq
  simp [BitVec.extractLsb'_toNat, Nat.shiftRight_eq_div_pow]
  omega

theorem byteOf_byte (b : Byte) : byteOf (b.setWidth 32) = b := by
  apply BitVec.eq_of_toNat_eq
  simp [byteOf]
  omega

theorem payloadBytes_payloadOf (bs : List Byte) : payloadBytes (payloadOf bs) = bs := by
  have hid : byteOf ∘ (fun b : Byte => b.setWidth 32) = id := funext byteOf_byte
  rw [payloadBytes, payloadOf, List.map_map, hid, List.map_id]

/-- Decoded bytes that fit have no error as an ENCSER payload. -/
theorem payloadError_payloadOf {m : Nat} {bs : List Byte} (hlen : bs.length ≤ m) :
    payloadError m .encser (payloadOf bs) = none := by
  refine payloadError_of_format (by simpa [payloadOf] using hlen) (fun _ w hw => ?_) nofun
  obtain ⟨b, -, rfl⟩ := List.mem_map.1 hw
  exact isIn8_of_byte b

theorem encodePath_of_fits {m : Nat} {bs : List Byte} (hlen : bs.length ≤ m) : encodePath m bs = .ok (encodedBuffer bs) := by
  rw [encodePath, payloadError_payloadOf hlen]

theorem completeBuffer_of_done {s : State} (hst : s.st = .done) (ho : s.opl = some .encser) : s.completeBuffer = some s.outb :=
  if_pos ⟨hst, ho⟩

theorem blockRun_opl {k : Nat} {s u : State} (h : blockRun k s = .next u) : u.opl = s.opl :=
  blockRun_keeps (P := fun v => v.opl = s.opl)
    (fun hstep hv => by
      obtain ⟨-, -, ho⟩ := blockStep_keeps_registers hstep
      exact ho.trans hv) h rfl

/-! ### The device's operations (R174, R175) -/

@[simp] theorem code_carrier : ControlCall.carrier.code = 0x40046913#32 := rfl
@[simp] theorem code_dutyCycle : ControlCall.dutyCycle.code = 0x40046915#32 := rfl
@[simp] theorem parameter_carrier : ControlCall.carrier.parameter = .carrierFrequencyHz := rfl
@[simp] theorem parameter_dutyCycle : ControlCall.dutyCycle.parameter = .dutyCyclePercent := rfl
@[simp] theorem load_carrierFrequencyHz (cfg : DeviceConfig) : cfg.load .carrierFrequencyHz = cfg.carrierFrequencyHz := rfl
@[simp] theorem load_dutyCyclePercent (cfg : DeviceConfig) : cfg.load .dutyCyclePercent = cfg.dutyCyclePercent := rfl

section Releasing
variable (ops : List DeviceOp) (states : List HandleState) (outcome : TransmitOutcome)

@[simp] theorem releasing_ops : (releasing ops states outcome).ops = ops ++ [.release] := rfl
@[simp] theorem releasing_states : (releasing ops states outcome).states = states ++ [.closed] := rfl
@[simp] theorem releasing_outcome : (releasing ops states outcome).outcome = outcome := rfl

end Releasing

/-- The single write of R174 carries the whole buffer. -/
theorem write_mem_deviceSequence {r : DeviceResults} (cfg : DeviceConfig) (buf : List Byte) (hopen : r.opening = .succeeded)
    (hcarrier : r.carrier = .succeeded) (hduty : r.dutyCycle = .succeeded) :
    .write buf ∈ (deviceSequence r cfg buf).ops := by
  cases hwrite : r.writing <;> simp [deviceSequence, hopen, hcarrier, hduty, hwrite]

/-! ### The obligations -/

/-- Settles O55: each line by its equation; a line stands for actions exactly where the range check passes (`expandLine_isSome`), and
that check stands between a text and its lines. -/
theorem pseudoInstructionsExpand : Obligations.PseudoInstructionsExpand := by
  unfold Obligations.PseudoInstructionsExpand
  intro letters s
  refine ⟨fun _ => rfl, fun n => ⟨asmWord_of_lt, asmWord_of_ge⟩, fun cmd ws text hc => ?_, fun cmd ws hws => ?_,
    fun cmd c ws hc hws => ?_, fun cmd c text bs => expandLine_issueHex_of_bytes letters s,
    fun cmd c text f => expandLine_issueHex_of_failure letters s, rfl, rfl, rfl, fun _ => ⟨rfl, rfl⟩,
    fun texts ls h l hl => ?_, fun texts text ts l hmem htokens hl hexpand => ?_⟩
  · rw [expandLine_issue, expandLine_run, asmIssue_of_no_command hc]
    exact ⟨rfl, rfl, expandLine_issueHex_of_no_command letters s hc text⟩
  · rw [expandLine_issue, expandLine_run, asmIssue_of_outOfRange hws]
    exact ⟨rfl, rfl⟩
  · rw [expandLine_issue, expandLine_run, asmIssue_of_words hc hws]
    exact ⟨rfl, rfl⟩
  · rw [expandLine_isSome]
    exact inRange_of_mem_programLines h l hl
  · have hrange : l.inRange = false := by rw [← expandLine_isSome letters s, hexpand, Option.isSome_none]
    have hbad := assembleLine_of_outOfRange hl hrange
    have hts : ts ≠ [] := by
      rintro rfl
      cases hl
    exact ⟨by simp [parseLine, htokens, hbad], programLines_of_bad_line hmem htokens hts hbad⟩

/-- Settles O56: the groups of two characters, one after the other. -/
theorem hexDecoderFailsExactlyAsStated : Obligations.HexDecoderFailsExactlyAsStated := by
  unfold Obligations.HexDecoderFailsExactlyAsStated
  intro letters text
  refine ⟨(exists_hexDecode_error_iff letters text).trans (hexGroups_eq_none_iff letters text), fun bs h => ?_⟩
  have hlen := length_of_hexGroups (hexDecode_eq_ok h)
  omega

/-- Settles O58: in each course of the device's answers the operations are a closed list, off which every clause is read. -/
theorem deviceIsReleasedAndWrittenOnce : Obligations.DeviceIsReleasedAndWrittenOnce := by
  unfold Obligations.DeviceIsReleasedAndWrittenOnce
  intro r cfg buf run open' carrier duty
  obtain ⟨opening, carrierAnswer, dutyAnswer, writing⟩ := r
  cases opening with
  | stalled | failed => simp [run, deviceSequence, controlsSeen, open']
  | succeeded =>
    cases carrierAnswer with
    | stalled | failed => simp [run, deviceSequence, controlsSeen, open', carrier]
    | succeeded =>
      cases dutyAnswer with
      | stalled | failed => simp [run, deviceSequence, controlsSeen, open', carrier, duty]
      | succeeded => cases writing <;> simp [run, deviceSequence, controlsSeen, open', carrier, duty]

/-- Settles O60: the first call without an answer ends the sequence, and nothing else stalls it. -/
theorem stalledCallsStallTheCaller : Obligations.StalledCallsStallTheCaller := by
  unfold Obligations.StalledCallsStallTheCaller
  intro r cfg buf run open' carrier duty
  obtain ⟨opening, carrierAnswer, dutyAnswer, writing⟩ := r
  cases opening with
  | stalled | failed => simp [run, deviceSequence, open']
  | succeeded =>
    cases carrierAnswer with
    | stalled | failed => simp [run, deviceSequence, open', carrier]
    | succeeded =>
      cases dutyAnswer with
      | stalled | failed => simp [run, deviceSequence, open', carrier, duty]
      | succeeded => cases writing <;> simp [run, deviceSequence, open', carrier, duty]

/-- Settles O59: the ENCSER job ends with the functions' output (O43), which is the encode path's buffer, and the device is given
it. -/
theorem completeBufferIsTheEncodePath : Obligations.CompleteBufferIsTheEncodePath := by
  unfold Obligations.CompleteBufferIsTheEncodePath
  intro s bs hst hlen
  have hp := payloadError_payloadOf hlen
  have ht : exec (.encser (payloadOf bs)) s = .next ((s.latch (cmdWord .encser)).accept .encser (payloadOf bs)).retire := by
    rw [exec_encser, issueAction_of_accept hst hp]
  obtain ⟨⟨u, hu, hdone, -, hencser, -⟩, -⟩ :=
    acceptedJobCompletes s _ (cmdWord .encser) (payloadOf bs) .encser hst (decodeOp_cmdWord .encser) ht rfl
  obtain ⟨hbuf, -⟩ := hencser rfl
  rw [payloadBytes_payloadOf, serialize_encodePulses] at hbuf
  have hbuf : encodedBuffer bs = u.outb := Except.ok.inj hbuf
  have hpath : encodePath Config.maxItems bs = .ok u.outb := by rw [encodePath_of_fits hlen, hbuf]
  refine ⟨_, u, ht, ?_, u.outb, completeBuffer_of_done hdone (blockRun_opl hu), hpath, ?_, fun letters r cfg text hdecode => ?_⟩
  · rwa [payloadOf, List.length_map] at hu
  · rw [serialize_encodePulses, hbuf]
  · rw [transmit_of_buffer r cfg hdecode hpath]
    exact ⟨rfl, write_mem_deviceSequence cfg u.outb⟩

end Sys2Proof.Machine
end
